-- ==== Sys2Proof/Word.lean ====
section
/-! DEFINITION. Word types: the widths the spec fixes (00_scope.md R9). -/

namespace Sys2Proof

/-- A byte: an integer in `0..255` (00_scope.md R11). -/
abbrev Byte := BitVec 8

/-- A 16-bit value: `LEN`, `EXPCS`, `FCS`, `CSOUT`, `BCNT` and the batch count (00_scope.md R9). -/
abbrev Half := BitVec 16

/-- A 32-bit value: register data, register index, command word, `CURSOR`, `ERR` (00_scope.md R9). -/
abbrev Word := BitVec 32

end Sys2Proof
end

