-- ==== Sys2Proof/Config.lean ====
section
/-! DEFINITION. What an FCFP is built with (00_scope.md R8) and what the spec leaves open: the parameters and the free
values. An `opaque` constant here has no body, so no proof can learn a value of it. -/

namespace Sys2Proof

/-- The parameters of 00_scope.md R8: the literal header bytes `HDR[0..H-1]`, the literal tail bytes `TAIL[0..T-1]`, both
in wire order, and the payload capacity `C`. -/
structure Params where
  hdr  : List Byte
  tail : List Byte
  cap  : Nat
deriving DecidableEq, Repr

/-- `H`, the number of literal header bytes (R8). -/
abbrev Params.H (p : Params) : Nat := p.hdr.length

/-- `T`, the number of literal tail bytes (R8). -/
abbrev Params.T (p : Params) : Nat := p.tail.length

/-- `C`, the payload capacity in bytes (R8). -/
abbrev Params.C (p : Params) : Nat := p.cap

/-- Free: which header length the hardware is built with (log 3). -/
opaque Config.headerCount : Nat

/-- Free: which header bytes the hardware is built with (log 3). -/
opaque Config.headerByte : Nat → Byte

/-- Free: which tail length the hardware is built with (log 3). -/
opaque Config.tailCount : Nat

/-- Free: which tail bytes the hardware is built with (log 3). -/
opaque Config.tailByte : Nat → Byte

/-- Free: which payload capacity the hardware is built with (log 3). -/
opaque Config.capacity : Nat

/-- The parameters of the machine that `State.reset` describes. DESIGN CHOICE (log 3): OPEN in the spec, so every part is
free, brought into the legal ranges of R8 (`1 ≤ H ≤ 255`, `1 ≤ T ≤ 255`, `1 ≤ C ≤ 65536`); every legal value is reached by
some value of the constants. -/
def Config.params : Params where
  hdr  := (List.range (1 + Config.headerCount % 255)).map Config.headerByte
  tail := (List.range (1 + Config.tailCount % 255)).map Config.tailByte
  cap  := 1 + Config.capacity % 65536

/-- Free: what payload buffer entry `i` holds after the block reset number `r`, before its first write (10_state.md R34,
R35: "unspecified, each entry independently"; log 4). -/
opaque Config.pbDraw : (r i : Nat) → Byte

end Sys2Proof
end

