-- ==== Sys2Proof/Syntax.lean ====
section
/-! DEFINITION. The syntax: the commands of the opcode table, the register names of the register map, and the assembler
lines. -/

namespace Sys2Proof

/-- The commands of spec/opcode_table.json (30_encoding.md R58). An operand has exactly the width of its field (R56, R57),
so every term is an instruction that some command word encodes. -/
inductive Instr where
  /-- `CS.CLR`: clear the checksum engine (40_checksum.md R74). -/
  | csClr
  /-- `CS.BYTE b`: fold one byte into the checksum engine (40_checksum.md R75). -/
  | csByte (b : Byte)
  /-- `FP.BATCH n`: take up to `n` bytes from `Q` and advance the frame parser (41_frame_parser.md R81). -/
  | fpBatch (n : Half)
deriving DecidableEq, Repr

/-- The register names of the register map (20_memory.md R38). -/
inductive Reg where
  | cmdw | status | state | cursor | hmatch | cmd | len | expcs | fcs | bcnt | csout | err | cap | hlen | tlen
  /-- `PB[i]`, through the payload window (20_memory.md R39). -/
  | pb (i : Nat)
deriving DecidableEq, Repr

/-- The lines of the assembler syntax (30_encoding.md R62, R63), with every immediate still an unchecked number. -/
inductive Line where
  | csClr
  | csByte (imm8 : Nat)
  | fpBatch (imm16 : Nat)
  | rd (idx : Nat)
  | wr (idx imm32 : Nat)
  /-- `ENV.PUSH b0, b1, …`: not a transaction; the byte source appends these bytes (R62). -/
  | envPush (bytes : List Nat)
  /-- The pseudo-instruction `CSUM b0, …, b(m-1)` (R63). -/
  | csum (bytes : List Nat)
deriving DecidableEq, Repr

end Sys2Proof
end

