-- ==== Sys2Proof/WellFormed.lean ====
section
/-! DEFINITION. What is well formed: the parameters within the ranges of 00_scope.md R8, and an assembler line whose
immediates are in range (30_encoding.md R62, "An immediate out of range is an assembly error"). A term of `Instr` needs no
check: its operand types are exactly the operand fields (R56, R57). -/

namespace Sys2Proof

/-- The legal parameter values of 00_scope.md R8. -/
abbrev Params.Legal (p : Params) : Prop :=
  (1 ≤ p.H ∧ p.H ≤ 255) ∧ (1 ≤ p.T ∧ p.T ≤ 255) ∧ (1 ≤ p.C ∧ p.C ≤ 65536)

/-- The immediates of an assembler line are in range (30_encoding.md R62, R63). -/
def Line.wf : Line → Bool
  | .csClr => true
  | .csByte imm8 => decide (imm8 ≤ 255)
  | .fpBatch imm16 => decide (imm16 ≤ 65535)
  | .rd idx => decide (idx < 2 ^ 32)
  | .wr idx imm32 => decide (idx < 2 ^ 32) && decide (imm32 < 2 ^ 32)
  | .envPush bytes => bytes.all (fun b => decide (b ≤ 255))
  | .csum bytes => bytes.all (fun b => decide (b ≤ 255))

end Sys2Proof
end

