-- ==== Sys2Proof/Decode.lean ====
section
/-! DEFINITION. Command words (30_encoding.md R55 to R61): the fields, the opcode table, the decoder, and the encoder. A
command word is a value, numbered bit 0 least significant, so no byte order arises (R55; 20_memory.md R45). -/

namespace Sys2Proof

/-- `OP`, bits 31:24 (R55). -/
def opField (w : Word) : Byte := w.extractLsb' 24 8

/-- `RSV`, bits 23:16 (R55). -/
def rsvField (w : Word) : Byte := w.extractLsb' 16 8

/-- `OPD`, bits 15:0 (R55); the count operand of `FP.BATCH` is this whole field (R57). -/
def opdField (w : Word) : Half := w.extractLsb' 0 16

/-- `OPD[15:8]`, which `CS.BYTE` requires to be 0 (R56). -/
def opdHigh (w : Word) : Byte := w.extractLsb' 8 8

/-- `OPD[7:0]`, the byte operand of `CS.BYTE` (R56). -/
def opdLow (w : Word) : Byte := w.extractLsb' 0 8

/-- The classes of illegal command words (30_encoding.md R59). -/
inductive Illegal where
  /-- `OP = 0x00` or `OP ≥ 0x04`. -/
  | opcode
  /-- `OP ∈ {0x01, 0x02, 0x03}` with `RSV ≠ 0`. -/
  | reserved
  /-- `OP = 0x01`, `RSV = 0` with `OPD ≠ 0`. -/
  | clrOperand
  /-- `OP = 0x02`, `RSV = 0` with `OPD[15:8] ≠ 0`. -/
  | byteOperand
deriving DecidableEq, Repr

/-- One row of the opcode map (30_encoding.md R58). -/
structure Row where
  mnemonic : String
  bits     : Word
  mask     : Word
deriving DecidableEq, Repr

/-- A word matches a row when its masked bits are the row's (R58). -/
def Row.hits (r : Row) (w : Word) : Bool := w &&& r.mask == r.bits

def rowCsClr   : Row := ⟨"CS.CLR",   0x01000000, 0xFFFFFFFF⟩
def rowCsByte  : Row := ⟨"CS.BYTE",  0x02000000, 0xFFFFFF00⟩
def rowFpBatch : Row := ⟨"FP.BATCH", 0x03000000, 0xFFFF0000⟩

/-- The opcode map (30_encoding.md R58). -/
def opcodeMap : List Row := [rowCsClr, rowCsByte, rowFpBatch]

/-- Which class of R59 a word that matches no row belongs to. -/
def illegalClass (w : Word) : Illegal :=
  if opField w = 0x00 ∨ 0x04 ≤ (opField w).toNat then .opcode
  else if rsvField w ≠ 0 then .reserved
  else if opField w = 0x01 then .clrOperand
  else .byteOperand

/-- `Execute(w)`'s selection: the first matching row (30_encoding.md R58), or the class of illegal word (R59). -/
def decode (w : Word) : Except Illegal Instr :=
  if rowCsClr.hits w then .ok .csClr
  else if rowCsByte.hits w then .ok (.csByte (opdLow w))
  else if rowFpBatch.hits w then .ok (.fpBatch (opdField w))
  else .error (illegalClass w)

/-- The word that encodes a command: opcode, `RSV = 0`, operand (30_encoding.md R55 to R58). -/
def encode : Instr → Word
  | .csClr => 0x01000000
  | .csByte b => 0x02000000 ||| b.setWidth 32
  | .fpBatch n => 0x03000000 ||| n.setWidth 32

/-- The row of the opcode map a command stands in. -/
def rowOf : Instr → Row
  | .csClr => rowCsClr
  | .csByte _ => rowCsByte
  | .fpBatch _ => rowFpBatch

/-- The host's word, as the opcode table numbers its bits: the value of bits `nbits-1 … 0`, everything above them 0. Every
command word is exactly 32 bits (30_encoding.md R61). -/
def tableWord (nbits w : Nat) : Word := BitVec.ofNat 32 (w % 2 ^ nbits)

/-- The instruction the decoder reads from a table word; none where it refuses, and none for a value of more than 32 bits,
which is no command word (R61). -/
def decodeTableWord (nbits w : Nat) : Option Instr :=
  if w % 2 ^ nbits < 2 ^ 32 then (decode (tableWord nbits w)).toOption else none

end Sys2Proof
end

