-- ==== Sys2Proof/Machine/State.lean ====
section
/-! DEFINITION. The state of FCFP and of its environment, as plain data, and its value right after the block reset. -/

namespace Sys2Proof.Machine

/-- Why a step can stop with a fault. -/
inductive Fault where
  /-- Raised by a `RegRead` of `STATUS` when it holds 2, 5, 6 or 7, codes "never held at a transaction boundary"
  (10_state.md R20, R36; 93_implementation_defined.md U6: "fault if observed"; log 8). Safe: no state that keeps the
  invariant raises it, and where it is raised nothing is claimed. -/
  | statusCodeNeverHeld
deriving DecidableEq, Repr

/-- Why a step can refuse. -/
inductive Refusal where
  /-- Raised only by an arm of `exec` for an instruction with no meaning yet; there is none. Safe. -/
  | notModelled (mnemonic : String)
deriving DecidableEq, Repr

/-- Byte-addressed storage: (index, byte) pairs with strictly rising indices, one for each entry written since reset. An
index not listed holds no known value (10_state.md R35), so no listed entry can equal what an unlisted one holds. -/
abbrev Memory := List Host.Cell

/-- The canonical form: the indices strictly rise. -/
abbrev Memory.wf (m : Memory) : Prop := m.Pairwise (fun x y => x.1 < y.1)

/-- The parse progress of the one frame buffer: everything that survives between batches (41_frame_parser.md R106). -/
structure Frame where
  /-- `CURSOR` (10_state.md R18). -/
  cursor : Word
  /-- `CMD` (R23). -/
  cmd    : Byte
  /-- `LEN` (R24). -/
  len    : Half
  /-- `EXPCS` (R25). -/
  expcs  : Half
  /-- `FS1`, the first frame checksum accumulator (R26). -/
  fs1    : Byte
  /-- `FS2`, the second (R26). -/
  fs2    : Byte
  /-- `PB[0..C-1]`, the payload buffer (R27). -/
  pb     : Memory
deriving DecidableEq, Repr

/-- The transient state of one `FP.BATCH n` (10_state.md R33). -/
structure Batch where
  /-- The batch count `n`. -/
  n    : Half
  /-- The number of bytes taken so far in this batch. -/
  k    : Nat
  /-- True once the final tail byte has been accepted in this batch. -/
  done : Bool
  /-- True once any mismatch has occurred in this batch. -/
  rst  : Bool
deriving DecidableEq, Repr

/-- What the environment does to FCFP (00_scope.md R5, R6). -/
inductive Input where
  /-- The issuer issues `RegWrite(idx, v)`. -/
  | regWrite (idx v : Word)
  /-- The issuer issues `RegRead(idx)`. -/
  | regRead (idx : Word)
  /-- The byte source appends one byte to the tail of `Q` (10_state.md R32). -/
  | byte (b : Byte)
  /-- RST is asserted (`true`) or released (`false`) (70_reset_and_hazards.md R122). -/
  | rst (asserted : Bool)
deriving DecidableEq, Repr

/-- The machine. The fields from `params` to `rstAsserted` are the spec's; the last three are the model's own. -/
structure State where
  /-- `H`, `HDR`, `T`, `TAIL`, `C` (00_scope.md R8), which `HLEN`, `TLEN`, `CAP` show (10_state.md R31); no step changes
  them (log 3). -/
  params      : Params
  /-- `CURSOR`, `CMD`, `LEN`, `EXPCS`, `FS1`, `FS2`, `PB` (10_state.md R18, R23 to R27). -/
  frame       : Frame
  /-- `STATUS` (10_state.md R20). -/
  status      : BitVec 3
  /-- `BCNT` (10_state.md R28). -/
  bcnt        : Half
  /-- `S1` (10_state.md R29). -/
  s1          : Byte
  /-- `S2` (10_state.md R29). -/
  s2          : Byte
  /-- `ERR` (10_state.md R30). -/
  err         : Word
  /-- `Q`, head first (10_state.md R32). -/
  q           : List Byte
  /-- The `FP.BATCH` that waits for a byte, if one does (10_state.md R33; 41_frame_parser.md R93). -/
  batch       : Option Batch
  /-- RST is asserted (70_reset_and_hazards.md R122). -/
  rstAsserted : Bool
  /-- The model's own: what the environment is still going to do, oldest first (log 1). -/
  pending     : List Input
  /-- The model's own: the values `RegRead` has returned to the issuer, oldest first (log 10). -/
  replies     : List Word
  /-- The model's own: how many block resets have happened; numbers the free values of `PB` (log 4). -/
  resets      : Nat
deriving DecidableEq, Repr

/-- The frame registers after the block reset (10_state.md R34); no `PB` entry holds a known value. -/
def Frame.reset : Frame where
  cursor := 0
  cmd := 0
  len := 0
  expcs := 0
  fs1 := 0
  fs2 := 0
  pb := []

/-- The machine right after the block reset (10_state.md R34; 70_reset_and_hazards.md R125), RST released, nothing yet
delivered or issued (log 6). -/
def State.reset : State where
  params := Config.params
  frame := Frame.reset
  status := 0
  bcnt := 0
  s1 := 0
  s2 := 0
  err := 0
  q := []
  batch := none
  rstAsserted := false
  pending := []
  replies := []
  resets := 0

end Sys2Proof.Machine
end

