-- ==== Sys2Proof/Machine/Ops.lean ====
section
/-! DEFINITION. The named operations over memory and registers: the payload buffer, byte pairs, command errors (the only
"exception" FCFP has) and the block reset. -/

namespace Sys2Proof.Machine

/-- The byte stored at index `i`; none where nothing has been written since reset (10_state.md R35). -/
def Memory.read? : Memory → Nat → Option Byte
  | [], _ => none
  | (a, x) :: m, i => if a = i then some x else Memory.read? m i

/-- Store `b` at index `i`, keeping the indices strictly rising. -/
def Memory.write : Memory → Nat → Byte → Memory
  | [], i, b => [(i, b)]
  | (a, x) :: m, i, b =>
    if i < a then (i, b) :: (a, x) :: m
    else if i = a then (i, b) :: m
    else (a, x) :: Memory.write m i b

/-- What a read of `PB[i]` gives: the byte written last, or, before the first write since reset, a value that nothing
constrains (10_state.md R34, R35; log 4). -/
def pbByte (s : State) (i : Nat) : Byte :=
  match s.frame.pb.read? i with
  | some b => b
  | none => Config.pbDraw s.resets i

/-- `(a << 8) | b`, with `a` the more significant byte (00_scope.md R11; 40_checksum.md R72). -/
def packBytes (a b : Byte) : Half := (a.setWidth 16 <<< 8) ||| b.setWidth 16

/-- `b << 8`: the first byte of a big-endian pair, the low byte 0 until the next one (41_frame_parser.md R85, R87). -/
def highByte (b : Byte) : Half := b.setWidth 16 <<< 8

/-- `(v & 0xFF00) | b`: the second byte of a big-endian pair (41_frame_parser.md R86, R88). -/
def lowByte (v : Half) (b : Byte) : Half := (v &&& 0xFF00) ||| b.setWidth 16

/-- The command errors of 10_state.md R30. -/
inductive CmdError where
  | illcmd | badwr | badrd
deriving DecidableEq, Repr

/-- The bit of `ERR` a command error sets (10_state.md R30; 60_exceptions.md R109). -/
def CmdError.bit : CmdError → Nat
  | .illcmd => 0
  | .badwr => 1
  | .badrd => 2

/-- `raise CmdError(k)`: set the sticky bit of `ERR`; no other effect (00_scope.md R12; 60_exceptions.md R110). There is no
handler to enter and nothing to return from (R114, R115). -/
def raiseCmdError (e : CmdError) (s : State) : State :=
  { s with err := s.err ||| (1 <<< e.bit) }

/-- The block reset (70_reset_and_hazards.md R122, R123): every element at its value in 10_state.md R34, a waiting batch
ended, `Q` unchanged (R124), and RST asserted until it is released. `PB` gets fresh free values (log 4). -/
def blockReset (s : State) : State :=
  { s with
    frame := Frame.reset
    status := 0
    bcnt := 0
    s1 := 0
    s2 := 0
    err := 0
    batch := none
    rstAsserted := true
    resets := s.resets + 1 }

/-- RST is released: FCFP is idle and the next transaction executes normally (70_reset_and_hazards.md R122). -/
def releaseReset (s : State) : State := { s with rstAsserted := false }

/-- The byte source's only step: one byte appended to the tail of `Q` (00_scope.md R5; 10_state.md R32). -/
def appendByte (b : Byte) (s : State) : State := { s with q := s.q ++ [b] }

/-- The value a `RegRead` returned reaches the issuer (00_scope.md R6; log 10). -/
def reply (v : Word) (s : State) : State := { s with replies := s.replies ++ [v] }

/-- No transaction may start: an `FP.BATCH` waits (20_memory.md R49) or RST is asserted (70_reset_and_hazards.md R122;
log 5). -/
def portBlocked (s : State) : Bool := s.batch.isSome || s.rstAsserted

end Sys2Proof.Machine
end

