-- ==== Sys2Proof/Machine/Operands.lean ====
section
/-! DEFINITION. What an index or an offset names: the register map (20_memory.md R38), the window of a frame the cursor
stands in (30_encoding.md R66), and the literal and payload positions within it. The operand fields of a command word are
in Decode.lean. -/

namespace Sys2Proof.Machine

/-- The register map of 20_memory.md R38: the register an index names, if any. -/
def regAt (p : Params) (idx : Word) : Option Reg :=
  match idx.toNat with
  | 0x0 => some .cmdw
  | 0x1 => some .status
  | 0x2 => some .state
  | 0x3 => some .cursor
  | 0x4 => some .hmatch
  | 0x5 => some .cmd
  | 0x6 => some .len
  | 0x7 => some .expcs
  | 0x8 => some .fcs
  | 0x9 => some .bcnt
  | 0xA => some .csout
  | 0xB => some .err
  | 0xC => some .cap
  | 0xD => some .hlen
  | 0xE => some .tlen
  | i => if 0x10000 ≤ i ∧ i < 0x10000 + p.C then some (.pb (i - 0x10000)) else none

/-- The index a register name stands for in `RD` and `WR` (20_memory.md R38; 30_encoding.md R62). -/
def regIndex : Reg → Nat
  | .cmdw => 0x0
  | .status => 0x1
  | .state => 0x2
  | .cursor => 0x3
  | .hmatch => 0x4
  | .cmd => 0x5
  | .len => 0x6
  | .expcs => 0x7
  | .fcs => 0x8
  | .bcnt => 0x9
  | .csout => 0xA
  | .err => 0xB
  | .cap => 0xC
  | .hlen => 0xD
  | .tlen => 0xE
  | .pb i => 0x10000 + i

/-- The windows of a frame, in wire order (10_state.md R21; 30_encoding.md R65). -/
inductive Window where
  | header | cmd | lenHi | lenLo | csHi | csLo | payload | tail
deriving DecidableEq, Repr

/-- The window the byte at offset `c` falls in (30_encoding.md R66; 41_frame_parser.md R82). Past the frame's last byte,
where 10_state.md R19 says the cursor never stands, it is the tail window, R82's own last arm (log 9). -/
def windowAt (p : Params) (c : Nat) (len : Half) : Window :=
  if c < p.H then .header
  else if c = p.H then .cmd
  else if c = p.H + 1 then .lenHi
  else if c = p.H + 2 then .lenLo
  else if c = p.H + 3 then .csHi
  else if c = p.H + 4 then .csLo
  else if c < p.H + 5 + len.toNat then .payload
  else .tail

/-- The window the *next* byte falls in: `STATE` computed from `CURSOR` and `LEN` (10_state.md R21). -/
def frameWindow (p : Params) (f : Frame) : Window := windowAt p f.cursor.toNat f.len

/-- The codes of `STATE` (10_state.md R21). -/
def windowCode : Window → BitVec 3
  | .header => 0
  | .cmd => 1
  | .lenHi => 2
  | .lenLo => 3
  | .csHi => 4
  | .csLo => 5
  | .payload => 6
  | .tail => 7

/-- `HMATCH = min(CURSOR, H)` (10_state.md R22). -/
def headerMatched (p : Params) (f : Frame) : Nat := min f.cursor.toNat p.H

/-- `i = c - (H + 5)`: the payload byte at the cursor (41_frame_parser.md R89). -/
def payloadIndex (p : Params) (f : Frame) : Nat := f.cursor.toNat - (p.H + 5)

/-- Where payload byte `i` goes: `PB[i mod C]` (41_frame_parser.md R89, R99). -/
def payloadSlot (p : Params) (i : Nat) : Nat := i % p.C

/-- `t = c - (H + 5 + LEN)`: the tail byte at the cursor (41_frame_parser.md R90). -/
def tailIndex (p : Params) (f : Frame) : Nat := f.cursor.toNat - (p.H + 5 + f.len.toNat)

end Sys2Proof.Machine
end

