-- ==== Sys2Proof/Machine/Flags.lean ====
section
/-! DEFINITION. The status computations: the codes of `STATUS` and which one a batch ends with (10_state.md R20;
41_frame_parser.md R94), and what a read of `ERR` shows (10_state.md R30). FCFP has no condition flags. -/

namespace Sys2Proof.Machine

/-! The codes of `STATUS` (10_state.md R20). -/

def statusUnfinished : BitVec 3 := 0
def statusReset : BitVec 3 := 1
def statusVerified : BitVec 3 := 3
def statusChecksumError : BitVec 3 := 4

/-- The codes `STATUS` holds at a transaction boundary (10_state.md R36). -/
def statusLegal (v : BitVec 3) : Bool :=
  v == statusUnfinished || v == statusReset || v == statusVerified || v == statusChecksumError

/-- `FCS = (FS1 << 8) | FS2` (10_state.md R26). -/
def frameChecksum (f : Frame) : Half := packBytes f.fs1 f.fs2

/-- `CSOUT = (S1 << 8) | S2` (10_state.md R29). -/
def csOut (s : State) : Half := packBytes s.s1 s.s2

/-- The end-of-batch status (41_frame_parser.md R94): DONE first, then RESET, then UNFINISHED (60_exceptions.md R113). -/
def endStatus (bt : Batch) (f : Frame) : BitVec 3 :=
  if bt.done then (if frameChecksum f = f.expcs then statusVerified else statusChecksumError)
  else if bt.rst then statusReset
  else statusUnfinished

/-- What a read of `ERR` shows: bits 31:3 read as 0 (10_state.md R30). -/
def errShown (s : State) : Word := s.err &&& 0x7

end Sys2Proof.Machine
end

