-- ==== Sys2Proof/Machine/Checksum.lean ====
section
/-! DEFINITION. The checksum algorithm and the commands of the CS unit (40_checksum.md). -/

namespace Sys2Proof.Machine

/-- `fold((s1, s2), b)` (40_checksum.md R71): exact sums, each reduced mod 255 (R73); the second accumulator adds the
updated first. -/
def fold (acc : Byte × Byte) (b : Byte) : Byte × Byte :=
  let s1 := (acc.1.toNat + b.toNat) % 255
  let s2 := (acc.2.toNat + s1) % 255
  (BitVec.ofNat 8 s1, BitVec.ofNat 8 s2)

/-- The accumulators after a byte sequence, from the left (40_checksum.md R72). -/
def foldAll (acc : Byte × Byte) (bytes : List Byte) : Byte × Byte := bytes.foldl fold acc

/-- `checksum(x0 … x(m-1))` (40_checksum.md R72). -/
def checksum (bytes : List Byte) : Half :=
  let acc := foldAll (0, 0) bytes
  packBytes acc.1 acc.2

/-- `CS.CLR` (40_checksum.md R74). -/
def execCsClr (s : State) : Host.Outcome State Fault Refusal :=
  .next { s with s1 := 0, s2 := 0 }

/-- `CS.BYTE b` (40_checksum.md R75). -/
def execCsByte (b : Byte) (s : State) : Host.Outcome State Fault Refusal :=
  let acc := fold (s.s1, s.s2) b
  .next { s with s1 := acc.1, s2 := acc.2 }

end Sys2Proof.Machine
end

