-- ==== Sys2Proof/Machine/Parser.lean ====
section
/-! DEFINITION. The frame parser: the per-byte step, the batch loop, and `FP.BATCH` (41_frame_parser.md). -/

namespace Sys2Proof.Machine

/-- What one byte did to the batch (41_frame_parser.md R91, R92). -/
inductive ByteEvent where
  | accepted | mismatch | frameDone
deriving DecidableEq, Repr

/-- The frame after one byte, and what happened. -/
structure ByteResult where
  frame : Frame
  event : ByteEvent
deriving DecidableEq, Repr

/-- `Mismatch()`: the cursor returns to 0 and the byte is dropped; the other frame registers keep their values
(41_frame_parser.md R92, R100). -/
def mismatch (f : Frame) : ByteResult := ⟨{ f with cursor := 0 }, .mismatch⟩

/-- `HeaderByte(c, b)` (41_frame_parser.md R83). -/
def headerByte (p : Params) (f : Frame) (b : Byte) : ByteResult :=
  if p.hdr[f.cursor.toNat]? = some b then ⟨{ f with cursor := f.cursor + 1 }, .accepted⟩ else mismatch f

/-- `CmdByte(b)` (41_frame_parser.md R84). -/
def cmdByte (p : Params) (f : Frame) (b : Byte) : ByteResult :=
  ⟨{ f with cmd := b, fs1 := 0, fs2 := 0, cursor := BitVec.ofNat 32 (p.H + 1) }, .accepted⟩

/-- `LenHiByte(b)` (41_frame_parser.md R85). -/
def lenHiByte (p : Params) (f : Frame) (b : Byte) : ByteResult :=
  ⟨{ f with len := highByte b, cursor := BitVec.ofNat 32 (p.H + 2) }, .accepted⟩

/-- `LenLoByte(b)` (41_frame_parser.md R86). -/
def lenLoByte (p : Params) (f : Frame) (b : Byte) : ByteResult :=
  ⟨{ f with len := lowByte f.len b, cursor := BitVec.ofNat 32 (p.H + 3) }, .accepted⟩

/-- `CsHiByte(b)` (41_frame_parser.md R87). -/
def csHiByte (p : Params) (f : Frame) (b : Byte) : ByteResult :=
  ⟨{ f with expcs := highByte b, cursor := BitVec.ofNat 32 (p.H + 4) }, .accepted⟩

/-- `CsLoByte(b)` (41_frame_parser.md R88). -/
def csLoByte (p : Params) (f : Frame) (b : Byte) : ByteResult :=
  ⟨{ f with expcs := lowByte f.expcs b, cursor := BitVec.ofNat 32 (p.H + 5) }, .accepted⟩

/-- `PayloadByte(c, b)` (41_frame_parser.md R89, R99). -/
def payloadByte (p : Params) (f : Frame) (b : Byte) : ByteResult :=
  let acc := fold (f.fs1, f.fs2) b
  ⟨{ f with
      pb := f.pb.write (payloadSlot p (payloadIndex p f)) b
      fs1 := acc.1
      fs2 := acc.2
      cursor := f.cursor + 1 }, .accepted⟩

/-- `FinalTail()` (41_frame_parser.md R91). -/
def finalTail (f : Frame) : ByteResult := ⟨{ f with cursor := 0 }, .frameDone⟩

/-- `TailByte(c, b)` (41_frame_parser.md R90). -/
def tailByte (p : Params) (f : Frame) (b : Byte) : ByteResult :=
  if p.tail[tailIndex p f]? ≠ some b then mismatch f
  else if tailIndex p f = p.T - 1 then finalTail f
  else ⟨{ f with cursor := f.cursor + 1 }, .accepted⟩

/-- `Step(b)`: the byte just taken goes through exactly one arm (41_frame_parser.md R82). -/
def stepByte (p : Params) (f : Frame) (b : Byte) : ByteResult :=
  match frameWindow p f with
  | .header => headerByte p f b
  | .cmd => cmdByte p f b
  | .lenHi => lenHiByte p f b
  | .lenLo => lenLoByte p f b
  | .csHi => csHiByte p f b
  | .csLo => csLoByte p f b
  | .payload => payloadByte p f b
  | .tail => tailByte p f b

/-- The loop condition `k < n and not done` (41_frame_parser.md R81). -/
def batchRunning (bt : Batch) : Bool := decide (bt.k < bt.n.toNat) && !bt.done

/-- The transient values after one more byte (41_frame_parser.md R81, R91, R92). -/
def batchAfter (bt : Batch) (e : ByteEvent) : Batch :=
  { bt with
    k := bt.k + 1
    done := bt.done || decide (e = .frameDone)
    rst := bt.rst || decide (e = .mismatch) }

/-- What is left when the batch loop stops or has no byte to take. -/
structure LoopResult where
  q     : List Byte
  frame : Frame
  batch : Batch
deriving DecidableEq, Repr

/-- The loop of `FP_BATCH(n)` over the bytes now in `Q` (41_frame_parser.md R81): it stops when the loop condition fails,
leaving the other bytes in `Q` (R97), or when `Q` is empty. -/
def batchLoop (p : Params) : List Byte → Frame → Batch → LoopResult
  | [], f, bt => ⟨[], f, bt⟩
  | b :: q, f, bt =>
    if batchRunning bt then
      let r := stepByte p f b
      batchLoop p q r.frame (batchAfter bt r.event)
    else ⟨b :: q, f, bt⟩

/-- The end-of-batch writes: `BCNT <- k` and `STATUS` (41_frame_parser.md R81, R94, R95). -/
def endBatch (bt : Batch) (s : State) : State :=
  { s with
    batch := none
    bcnt := BitVec.ofNat 16 bt.k
    status := endStatus bt s.frame }

/-- Run a batch as far as the bytes in `Q` allow: to its end, or to a wait on an empty `Q` (41_frame_parser.md R81,
R93; log 2). -/
def runBatch (bt : Batch) (s : State) : State :=
  let r := batchLoop s.params s.q s.frame bt
  let t := { s with q := r.q, frame := r.frame }
  if batchRunning r.batch then { t with batch := some r.batch } else endBatch r.batch t

/-- `FP.BATCH n` (41_frame_parser.md R81). -/
def execFpBatch (n : Half) (s : State) : Host.Outcome State Fault Refusal :=
  .next (runBatch { n := n, k := 0, done := false, rst := false } s)

end Sys2Proof.Machine
end

