-- ==== Sys2Proof/Machine/Dispatch.lean ====
section
/-! DEFINITION. One arm per command: `Execute(w)`'s call of the command it selected (30_encoding.md R58). -/

namespace Sys2Proof.Machine

def exec (i : Instr) (s : State) : Host.Outcome State Fault Refusal :=
  match i with
  | .csClr => Sys2Proof.Machine.execCsClr s
  | .csByte b => Sys2Proof.Machine.execCsByte b s
  | .fpBatch n => Sys2Proof.Machine.execFpBatch n s

end Sys2Proof.Machine
end

