-- ==== Sys2Proof/Machine/Registers.lean ====
section
/-! DEFINITION. The register transactions (20_memory.md R40 to R42) and `Execute(w)` (30_encoding.md R58, R59). -/

namespace Sys2Proof.Machine

/-- The value of a named register, zero-extended to 32 bits (20_memory.md R38, R40). A computed register is computed from
the state at the read. `STATUS` holding a code it never holds is a fault (log 8). -/
def readReg (r : Reg) (s : State) : Except Fault Word :=
  match r with
  | .cmdw => .ok 0
  | .status => if statusLegal s.status then .ok (s.status.setWidth 32) else .error .statusCodeNeverHeld
  | .state => .ok ((windowCode (frameWindow s.params s.frame)).setWidth 32)
  | .cursor => .ok s.frame.cursor
  | .hmatch => .ok (BitVec.ofNat 32 (headerMatched s.params s.frame))
  | .cmd => .ok (s.frame.cmd.setWidth 32)
  | .len => .ok (s.frame.len.setWidth 32)
  | .expcs => .ok (s.frame.expcs.setWidth 32)
  | .fcs => .ok ((frameChecksum s.frame).setWidth 32)
  | .bcnt => .ok (s.bcnt.setWidth 32)
  | .csout => .ok ((csOut s).setWidth 32)
  | .err => .ok (errShown s)
  | .cap => .ok (BitVec.ofNat 32 s.params.C)
  | .hlen => .ok (BitVec.ofNat 32 s.params.H)
  | .tlen => .ok (BitVec.ofNat 32 s.params.T)
  | .pb i => .ok ((pbByte s i).setWidth 32)

/-- `RegRead(idx)`: the value returned and the state after (20_memory.md R40, R42). -/
def regRead (idx : Word) (s : State) : Host.Outcome (Word × State) Fault Refusal :=
  match regAt s.params idx with
  | some r =>
    match readReg r s with
    | .ok v => .next (v, s)
    | .error e => .fault e
  | none => .next (0, raiseCmdError .badrd s)

/-- `Execute(w)` (30_encoding.md R58): the command the word encodes, or ILLCMD (R59). -/
def execute (w : Word) (s : State) : Host.Outcome State Fault Refusal :=
  match decode w with
  | .ok i => exec i s
  | .error _ => .next (raiseCmdError .illcmd s)

/-- `RegWrite(idx, v)` (20_memory.md R41, R42). -/
def regWrite (idx v : Word) (s : State) : Host.Outcome State Fault Refusal :=
  if idx = 0 then execute v s else .next (raiseCmdError .badwr s)

end Sys2Proof.Machine
end

