-- ==== Sys2Proof/Machine/Environment.lean ====
section
/-! DEFINITION. The environment's inputs: what each does, and which one comes next (00_scope.md R5, R6). -/

namespace Sys2Proof.Machine

/-- One input takes effect: a transaction of the issuer, a byte of the byte source, or a change of RST. -/
def perform (x : Input) (s : State) : Host.Outcome State Fault Refusal :=
  match x with
  | .regWrite idx v => regWrite idx v s
  | .regRead idx =>
    match regRead idx s with
    | .next r => .next (reply r.1 r.2)
    | .fault e => .fault e
    | .refused e => .refused e
  | .byte b => .next (appendByte b s)
  | .rst true => .next (blockReset s)
  | .rst false => .next (releaseReset s)

/-- The input is a REG transaction of the issuer. -/
def isTransaction : Input → Bool
  | .regWrite _ _ => true
  | .regRead _ => true
  | .byte _ => false
  | .rst _ => false

/-- The oldest input that is no transaction, and the list without it. -/
def takeNonTransaction : List Input → Option (Input × List Input)
  | [] => none
  | x :: xs =>
    if isTransaction x then
      match takeNonTransaction xs with
      | some (y, ys) => some (y, x :: ys)
      | none => none
    else some (x, xs)

/-- The next input and the inputs after it: the oldest, or, while no transaction may start, the oldest that is none; the
issuer's transactions keep their order (20_memory.md R49; 70_reset_and_hazards.md R135). -/
def nextInput (s : State) : Option (Input × List Input) :=
  if portBlocked s then takeNonTransaction s.pending
  else
    match s.pending with
    | [] => none
    | x :: xs => some (x, xs)

end Sys2Proof.Machine
end

