-- ==== Sys2Proof/Machine/Step.lean ====
section
/-! DEFINITION. One step of the machine with its environment, and where the host places an instruction. -/

namespace Sys2Proof.Machine

/-- One step. A batch that waited goes on when `Q` has a byte (41_frame_parser.md R93). Otherwise the next input takes
effect; with none, nothing happens: FCFP is idle, or it waits (log 2). -/
def step (s : State) : Host.Outcome State Fault Refusal :=
  match s.batch, s.q with
  | some bt, _ :: _ => .next (runBatch bt s)
  | _, _ =>
    match nextInput s with
    | some (x, rest) => perform x { s with pending := rest }
    | none => .next s

/-- `s` with the instruction of a table word as the issuer's very next transaction, a write of that word to `CMDW`
(20_memory.md R53), and the port open for it: no batch waiting and RST released (log 7). -/
def State.withFetchWord (s : State) (nbits w : Nat) : State :=
  { s with
    pending := .regWrite 0 (tableWord nbits w) :: s.pending
    batch := none
    rstAsserted := false }

end Sys2Proof.Machine
end

