-- ==== Sys2Proof/Machine/Assembler.lean ====
section
/-! DEFINITION. The assembler syntax (30_encoding.md R62, R63): the inputs a line stands for. -/

namespace Sys2Proof.Machine

/-- The write to `CMDW` that executes a command (30_encoding.md R62). -/
def commandWrite (i : Instr) : Input := .regWrite 0 (encode i)

/-- The inputs of a line whose immediates are in range (30_encoding.md R62, R63). -/
def lineInputs : Line → List Input
  | .csClr => [commandWrite .csClr]
  | .csByte imm8 => [commandWrite (.csByte (BitVec.ofNat 8 imm8))]
  | .fpBatch imm16 => [commandWrite (.fpBatch (BitVec.ofNat 16 imm16))]
  | .rd idx => [.regRead (BitVec.ofNat 32 idx)]
  | .wr idx imm32 => [.regWrite (BitVec.ofNat 32 idx) (BitVec.ofNat 32 imm32)]
  | .envPush bytes => bytes.map (fun b => .byte (BitVec.ofNat 8 b))
  | .csum bytes => commandWrite .csClr :: bytes.map (fun b => commandWrite (.csByte (BitVec.ofNat 8 b)))

/-- Assemble one line; none for an immediate out of range, which is an assembly error and no encoding (R62). -/
def assembleLine (l : Line) : Option (List Input) := if l.wf then some (lineInputs l) else none

/-- Assemble a program, one line after another. -/
def assemble : List Line → Option (List Input)
  | [] => some []
  | l :: ls =>
    match assembleLine l, assemble ls with
    | some xs, some ys => some (xs ++ ys)
    | _, _ => none

end Sys2Proof.Machine
end

