-- ==== Sys2Proof/Machine/Wire.lean ====
section
/-! DEFINITION. The wire frame encoding (30_encoding.md R64 to R68). -/

namespace Sys2Proof.Machine

/-- The bytes of a frame on the wire (30_encoding.md R64, R66): header, command, length and expected checksum big-endian,
payload, tail. The length field is the payload's length (R67), so the frame is well formed when that is at most 65535. -/
def wireFrame (p : Params) (cmd : Byte) (expcs : Half) (payload : List Byte) : List Byte :=
  let len := BitVec.ofNat 16 payload.length
  p.hdr ++ [cmd, len.extractLsb' 8 8, len.extractLsb' 0 8, expcs.extractLsb' 8 8, expcs.extractLsb' 0 8]
    ++ payload ++ p.tail

end Sys2Proof.Machine
end

