-- ==== Sys2Proof/Safety.lean ====
section
/-! DEFINITION. What holds of a good state, and the terms in which statements speak of states and runs. -/

namespace Sys2Proof.Machine

/-- The cursor stands inside a frame (10_state.md R19, 1). -/
def cursorInFrame (p : Params) (f : Frame) : Prop :=
  f.cursor.toNat ≤ p.H + 4 ∨
    (p.H + 5 ≤ f.cursor.toNat ∧ f.cursor.toNat < p.H + 5 + f.len.toNat + p.T)

/-- The invariant of the machine. -/
structure StateInv (s : State) : Prop where
  /-- The parameters are within the ranges of 00_scope.md R8. -/
  params_legal : s.params.Legal
  /-- 10_state.md R19. -/
  cursor_in_frame : cursorInFrame s.params s.frame
  /-- The accumulators are in 0..254 (10_state.md R26, R29; 40_checksum.md R76). -/
  fs1_le : s.frame.fs1.toNat ≤ 254
  fs2_le : s.frame.fs2.toNat ≤ 254
  s1_le : s.s1.toNat ≤ 254
  s2_le : s.s2.toNat ≤ 254
  /-- `STATUS ∈ {0, 1, 3, 4}` (10_state.md R36). -/
  status_legal : statusLegal s.status = true
  /-- `ERR[31:3]` are never set (10_state.md R30). -/
  err_high_clear : s.err.toNat < 8
  /-- The payload buffer keeps its canonical form and its capacity (10_state.md R27). -/
  pb_wf : s.frame.pb.wf
  pb_within : ∀ c ∈ s.frame.pb, c.1 < s.params.C
  /-- A batch is in progress only while its loop has something left to do (41_frame_parser.md R81, R93), and never while
  RST is asserted (70_reset_and_hazards.md R122). -/
  batch_running : ∀ bt, s.batch = some bt → batchRunning bt = true ∧ s.rstAsserted = false

/-- `PB` begins with these bytes. -/
def payloadHeld (f : Frame) (xs : List Byte) : Prop :=
  ∀ i b, xs[i]? = some b → f.pb.read? i = some b

/-- `FCS` covers exactly the payload bytes of the current frame taken so far, and, for a frame that fits, `PB` holds them
(10_state.md R26; 41_frame_parser.md R98; 70_reset_and_hazards.md R132). -/
def frameSumCovers (p : Params) (f : Frame) : Prop :=
  (p.H < f.cursor.toNat → f.cursor.toNat ≤ p.H + 5 → f.fs1 = 0 ∧ f.fs2 = 0) ∧
  (p.H + 5 ≤ f.cursor.toNat → f.len.toNat ≤ p.C →
    ∃ xs, xs.length = min (f.cursor.toNat - (p.H + 5)) f.len.toNat ∧ payloadHeld f xs ∧
      foldAll (0, 0) xs = (f.fs1, f.fs2))

/-- The byte an input folds into the checksum engine, if it is a `CS.BYTE` (30_encoding.md R62). -/
def csByteOf : Input → Option Byte
  | .regWrite idx v =>
    if idx = 0 then
      match decode v with
      | .ok (.csByte b) => some b
      | .ok .csClr => none
      | .ok (.fpBatch _) => none
      | .error _ => none
    else none
  | .regRead _ => none
  | .byte _ => none
  | .rst _ => none

/-- The machine is at a transaction boundary with its port open: no batch waits and RST is released. -/
abbrev idle (s : State) : Prop := s.batch = none ∧ s.rstAsserted = false

/-- No batch can go on by itself, so the next input is what happens next. -/
abbrev inputTurn (s : State) : Prop := s.batch = none ∨ s.q = []

end Sys2Proof.Machine
end

