-- ==== Sys2Proof/Certificates/Slice0/Obligations.lean ====
section
/-! DEFINITION. The statements of the model, for the provers. `R<n>` is a numbered rule of spec/. -/

open Sys2Proof Sys2Proof.Machine

/-! ### Encoding (30_encoding.md) -/

/-- R55 to R58: decoding the word that encodes a command gives the command back, every operand at every value; so does the
host's reading of the table's bits. -/
def Obligations.DecodeOfEncodeIsTheCommand : Prop :=
  ∀ i : Instr, decode (encode i) = .ok i ∧ decodeTableWord 32 (encode i).toNat = some i

/-- R58: each command has one word only. -/
def Obligations.EncodeOfDecodeIsTheWord : Prop :=
  ∀ (w : Word) (i : Instr), decode w = .ok i → encode i = w

/-- R58, whole: `Execute(w)` runs the command of the row whose match and mask `w` meets, or sets `ERR[0]`; no word meets two
rows; there are exactly 65793 legal words. -/
def Obligations.ExecuteSelectsByTheOpcodeMap : Prop :=
  (∀ (w : Word) (s : State),
    (w &&& 0xFFFFFFFF = 0x01000000 → execute w s = exec .csClr s) ∧
    (w &&& 0xFFFFFF00 = 0x02000000 → execute w s = exec (.csByte (w.extractLsb' 0 8)) s) ∧
    (w &&& 0xFFFF0000 = 0x03000000 → execute w s = exec (.fpBatch (w.extractLsb' 0 16)) s) ∧
    (w &&& 0xFFFFFFFF ≠ 0x01000000 → w &&& 0xFFFFFF00 ≠ 0x02000000 → w &&& 0xFFFF0000 ≠ 0x03000000 →
      execute w s = .next { s with err := s.err ||| 1 }) ∧
    ¬(w &&& 0xFFFFFFFF = 0x01000000 ∧ w &&& 0xFFFFFF00 = 0x02000000) ∧
    ¬(w &&& 0xFFFFFFFF = 0x01000000 ∧ w &&& 0xFFFF0000 = 0x03000000) ∧
    ¬(w &&& 0xFFFFFF00 = 0x02000000 ∧ w &&& 0xFFFF0000 = 0x03000000)) ∧
  Set.ncard {w : Word | ∃ i, decode w = .ok i} = 65793

/-- R59: which words are illegal; writing one to `CMDW` sets `ERR[0]` and changes nothing else; the next command still
executes, and `ERR[0]` stays set until the block reset. -/
def Obligations.IllegalWordsOnlySetIllcmd : Prop :=
  (∀ s t : State, step s = .next t → s.err &&& 1 = 1 →
    t.err &&& 1 = 1 ∨ ∃ rest, nextInput s = some (.rst true, rest)) ∧
  ∀ w : Word,
    ((∃ e, decode w = .error e) ↔
      (opField w = 0x00 ∨ 0x04 ≤ (opField w).toNat) ∨
      ((opField w = 0x01 ∨ opField w = 0x02 ∨ opField w = 0x03) ∧ rsvField w ≠ 0) ∨
      (opField w = 0x01 ∧ opdField w ≠ 0) ∨
      (opField w = 0x02 ∧ opdHigh w ≠ 0)) ∧
    ((∃ e, decode w = .error e) → ∀ s : State,
      regWrite 0 w s = .next { s with err := s.err ||| 1 } ∧
      ∀ i : Instr, ∃ t, exec i { s with err := s.err ||| 1 } = .next t ∧ t.err = s.err ||| 1)

/-- R58: words written out bit by bit from the opcode map decode to their commands, and some words of R59 do not decode. -/
def Obligations.WrittenOutWordsDecode : Prop :=
  decode 0b00000001000000000000000000000000 = .ok .csClr ∧
  decode 0b00000010000000000000000000100100 = .ok (.csByte 0x24) ∧
  decode 0b00000010000000000000000011111111 = .ok (.csByte 0xFF) ∧
  decode 0b00000011000000000000000000010000 = .ok (.fpBatch 16) ∧
  decode 0b00000011000000001000000000000001 = .ok (.fpBatch 0x8001) ∧
  decode 0x00000000 = .error .opcode ∧
  decode 0x01000001 = .error .clrOperand ∧
  decode 0x020001FF = .error .byteOperand ∧
  decode 0x03FF0010 = .error .reserved ∧
  decode 0x04000000 = .error .opcode

/-- R66: the frame has `H + 5 + LEN + T` bytes, and byte `o` of it belongs to the window the table gives. -/
def Obligations.WireFrameBytesStandAtTheirOffsets : Prop :=
  ∀ (p : Params) (cmd : Byte) (expcs : Half) (xs : List Byte), xs.length ≤ 65535 →
    (wireFrame p cmd expcs xs).length = p.H + 5 + xs.length + p.T ∧
    (∀ o, o < p.H → (wireFrame p cmd expcs xs)[o]? = p.hdr[o]?) ∧
    (wireFrame p cmd expcs xs)[p.H]? = some cmd ∧
    (wireFrame p cmd expcs xs)[p.H + 1]? = some (BitVec.ofNat 8 (xs.length / 256)) ∧
    (wireFrame p cmd expcs xs)[p.H + 2]? = some (BitVec.ofNat 8 (xs.length % 256)) ∧
    (wireFrame p cmd expcs xs)[p.H + 3]? = some (BitVec.ofNat 8 (expcs.toNat / 256)) ∧
    (wireFrame p cmd expcs xs)[p.H + 4]? = some (BitVec.ofNat 8 (expcs.toNat % 256)) ∧
    (∀ o, p.H + 5 ≤ o → o ≤ p.H + 4 + xs.length →
      (wireFrame p cmd expcs xs)[o]? = xs[o - (p.H + 5)]?) ∧
    (∀ o, p.H + 5 + xs.length ≤ o → o ≤ p.H + 4 + xs.length + p.T →
      (wireFrame p cmd expcs xs)[o]? = p.tail[o - (p.H + 5 + xs.length)]?)

/-- R62: what each assembler line with its immediates in range stands for, and that every line with an immediate out of
range, `CSUM` among them, assembles to nothing; the index that each register name stands for. -/
def Obligations.AssemblerLinesAreTheirTransactions : Prop :=
  assembleLine .csClr = some [.regWrite 0 0x01000000] ∧
  (∀ n, n ≤ 255 → assembleLine (.csByte n) = some [.regWrite 0 (0x02000000 ||| BitVec.ofNat 32 n)]) ∧
  (∀ n, 255 < n → assembleLine (.csByte n) = none) ∧
  (∀ n, n ≤ 65535 → assembleLine (.fpBatch n) = some [.regWrite 0 (0x03000000 ||| BitVec.ofNat 32 n)]) ∧
  (∀ n, 65535 < n → assembleLine (.fpBatch n) = none) ∧
  (∀ idx, idx < 2 ^ 32 → assembleLine (.rd idx) = some [.regRead (BitVec.ofNat 32 idx)]) ∧
  (∀ idx v, idx < 2 ^ 32 → v < 2 ^ 32 →
    assembleLine (.wr idx v) = some [.regWrite (BitVec.ofNat 32 idx) (BitVec.ofNat 32 v)]) ∧
  (∀ idx, 2 ^ 32 ≤ idx → assembleLine (.rd idx) = none) ∧
  (∀ idx v, 2 ^ 32 ≤ idx ∨ 2 ^ 32 ≤ v → assembleLine (.wr idx v) = none) ∧
  (∀ bs : List Nat, (∃ b ∈ bs, 255 < b) → assembleLine (.envPush bs) = none ∧ assembleLine (.csum bs) = none) ∧
  (∀ bs : List Nat, (∀ b ∈ bs, b ≤ 255) →
    assembleLine (.envPush bs) = some (bs.map (fun b => Input.byte (BitVec.ofNat 8 b)))) ∧
  (∀ (p : Params) (r : Reg), p.C ≤ 65536 → (∀ i, r = .pb i → i < p.C) →
    regAt p (BitVec.ofNat 32 (regIndex r)) = some r)

/-! ### The checksum engine (40_checksum.md) -/

/-- R74, whole: `CS.CLR` clears `S1` and `S2` and changes nothing else; `OP = 0x01` with any other bit set does not clear. -/
def Obligations.CsClrClearsTheEngine : Prop :=
  (∀ s : State, exec .csClr s = .next { s with s1 := 0, s2 := 0 }) ∧
  (∀ s : State, csOut { s with s1 := 0, s2 := 0 } = 0) ∧
  encode .csClr = 0x01000000 ∧
  (∀ (w : Word) (s : State), opField w = 0x01 → w ≠ 0x01000000 →
    execute w s = .next { s with err := s.err ||| 1 })

/-- R75, whole: `CS.BYTE b` folds `b` into `S1`, `S2` with exact sums mod 255 and changes nothing else; `OP = 0x02` with
`OPD[15:8] ≠ 0` or `RSV ≠ 0` folds nothing. -/
def Obligations.CsByteFoldsOneByte : Prop :=
  (∀ (b : Byte) (s : State), exec (.csByte b) s = .next
    { s with
      s1 := BitVec.ofNat 8 ((s.s1.toNat + b.toNat) % 255)
      s2 := BitVec.ofNat 8 ((s.s2.toNat + (s.s1.toNat + b.toNat) % 255) % 255) }) ∧
  (∀ b : Byte, encode (.csByte b) = 0x02000000 ||| b.setWidth 32) ∧
  (∀ (w : Word) (s : State), opField w = 0x02 → (opdHigh w ≠ 0 ∨ rsvField w ≠ 0) →
    execute w s = .next { s with err := s.err ||| 1 })

/-- R71, R72: the checksum in closed form: the high byte is the sum of the bytes mod 255, the low byte the sum of all their
prefix sums mod 255. -/
def Obligations.ChecksumIsTheSumAndThePrefixSums : Prop :=
  ∀ xs : List Byte, (checksum xs).toNat =
    256 * ((xs.map BitVec.toNat).sum % 255) +
      (xs.inits.map (fun ys => (ys.map BitVec.toNat).sum)).sum % 255

/-- R72, 95_test_vectors.md 2.1 and 3: the source's three vectors, the empty input, and R78's order sensitivity. -/
def Obligations.ChecksumVectors : Prop :=
  checksum [0, 255, 36, 48, 91, 34] = 0xD1F9 ∧
  checksum [0, 25, 64, 84, 0, 1] = 0xAE7C ∧
  checksum [0, 255, 36, 20, 93, 94] = 0xF3E5 ∧
  checksum [] = 0x0000 ∧
  checksum [0xFE, 0xFE] = 0xFDFC ∧
  checksum [1, 2] = 0x0304 ∧
  checksum [2, 1] = 0x0305

/-- R76, whole: the ranges of the accumulators, the number of checksums, and that a frame whose checksum field has a byte
0xFF ends CHECKSUM_ERROR once completed. -/
def Obligations.NoChecksumByteIsFF : Prop :=
  (∀ xs : List Byte, (foldAll (0, 0) xs).1.toNat ≤ 254 ∧ (foldAll (0, 0) xs).2.toNat ≤ 254 ∧
    (checksum xs).toNat / 256 ≤ 254 ∧ (checksum xs).toNat % 256 ≤ 254) ∧
  Set.ncard (Set.range checksum) ≤ 65025 ∧
  (∀ (n : Half) (s t : State), s.frame.fs1.toNat ≤ 254 → s.frame.fs2.toNat ≤ 254 →
    exec (.fpBatch n) s = .next t → t.batch = none → t.status = 3 ∨ t.status = 4 →
    t.frame.expcs.extractLsb' 8 8 = (0xFF : Byte) ∨ t.frame.expcs.extractLsb' 0 8 = (0xFF : Byte) →
    t.status = 4)

/-- R77: byte 0xFF folds like byte 0x00, at any position of a sequence; leading ones do not change the checksum. -/
def Obligations.ByteFFFoldsLikeByte00 : Prop :=
  (∀ acc : Byte × Byte, fold acc 0xFF = fold acc 0x00) ∧
  fold (0, 0) 0x00 = (0, 0) ∧
  (∀ xs ys : List Byte, checksum (xs ++ 0xFF :: ys) = checksum (xs ++ 0x00 :: ys)) ∧
  (∀ xs : List Byte, checksum (0x00 :: 0xFF :: xs) = checksum xs)

/-- R80: after `CS.CLR`, whatever the issuer and the byte source do (batches, waits, register reads, illegal words, no other
`CS.CLR` and no reset), once all of it has taken effect `CSOUT` is the checksum of the bytes given to `CS.BYTE`, in order. -/
def Obligations.StreamedChecksumIsTheFunction : Prop :=
  ∀ (k : Nat) (s t : State) (ins : List Input), idle s →
    s.pending = .regWrite 0 0x01000000 :: ins →
    (∀ x ∈ ins, x ≠ .rst true ∧ x ≠ .regWrite 0 0x01000000) →
    Host.Core.run Sys2Proof.core k s = .next t → t.pending = [] →
    csOut t = checksum (ins.filterMap csByteOf)

/-- R63: `CSUM` expands to `CS.CLR` and one `CS.BYTE` a byte, and after it `CSOUT` is the checksum of the bytes; nothing but
`S1`, `S2` has changed. With no bytes it is `CS.CLR` alone and leaves 0. -/
def Obligations.CsumLeavesTheChecksum : Prop :=
  ∀ (bs : List Nat) (rest : List Input) (s : State), (∀ b ∈ bs, b ≤ 255) → idle s →
    assembleLine (.csum bs) = some (.regWrite 0 0x01000000 ::
      bs.map (fun b => .regWrite 0 (0x02000000 ||| BitVec.ofNat 32 b))) ∧
    ∃ t, Host.Core.run Sys2Proof.core (1 + bs.length)
        { s with pending := lineInputs (.csum bs) ++ rest } = .next t ∧
      csOut t = checksum (bs.map (BitVec.ofNat 8)) ∧
      t = { s with pending := rest, s1 := t.s1, s2 := t.s2 }

/-- R107: `FP.BATCH` neither reads nor writes `S1`, `S2`; `CS.CLR` and `CS.BYTE` neither read nor write an FP register or
`Q`. -/
def Obligations.TheTwoUnitsAreIndependent : Prop :=
  (∀ (n : Half) (s t : State) (a b : Byte), exec (.fpBatch n) s = .next t →
    t.s1 = s.s1 ∧ t.s2 = s.s2 ∧
    exec (.fpBatch n) { s with s1 := a, s2 := b } = .next { t with s1 := a, s2 := b }) ∧
  (∀ (i : Instr) (s t : State) (f : Frame) (st : BitVec 3) (c : Half) (q : List Byte),
    (i = .csClr ∨ ∃ b, i = .csByte b) → exec i s = .next t →
    t.frame = s.frame ∧ t.status = s.status ∧ t.bcnt = s.bcnt ∧ t.q = s.q ∧
    exec i { s with frame := f, status := st, bcnt := c, q := q } =
      .next { t with frame := f, status := st, bcnt := c, q := q })

/-! ### The frame parser, one byte (41_frame_parser.md R82 to R92) -/

/-- R83, R92: a header byte, with a batch of one byte: on a match the cursor advances; otherwise it returns to 0, the byte is
dropped and the batch ends RESET. Every other frame register, and all of `PB`, is unchanged. -/
def Obligations.HeaderByteMatchesOrResets : Prop :=
  ∀ (s : State) (b : Byte) (q : List Byte), s.q = b :: q → s.frame.cursor.toNat < s.params.H →
    (s.params.hdr[s.frame.cursor.toNat]? = some b →
      exec (.fpBatch 1) s = .next
        { s with
          frame := { s.frame with cursor := s.frame.cursor + 1 }
          q := q, batch := none, bcnt := 1, status := 0 }) ∧
    (s.params.hdr[s.frame.cursor.toNat]? ≠ some b →
      exec (.fpBatch 1) s = .next
        { s with
          frame := { s.frame with cursor := 0 }
          q := q, batch := none, bcnt := 1, status := 1 })

/-- R84: the command byte, any value, is stored, the frame checksum starts at 0, the cursor goes to `H + 1`. -/
def Obligations.CommandByteIsStoredVerbatim : Prop :=
  ∀ (s : State) (b : Byte) (q : List Byte), s.q = b :: q → s.frame.cursor.toNat = s.params.H →
    exec (.fpBatch 1) s = .next
      { s with
        frame := { s.frame with cmd := b, fs1 := 0, fs2 := 0, cursor := BitVec.ofNat 32 (s.params.H + 1) }
        q := q, batch := none, bcnt := 1, status := 0 }

/-- R85, R86: the length bytes, big-endian; between them `LEN[7:0]` is 0. -/
def Obligations.LengthBytesAreBigEndian : Prop :=
  ∀ (s : State) (b : Byte) (q : List Byte), s.q = b :: q →
    (s.frame.cursor.toNat = s.params.H + 1 →
      exec (.fpBatch 1) s = .next
        { s with
          frame := { s.frame with
            len := BitVec.ofNat 16 (256 * b.toNat), cursor := BitVec.ofNat 32 (s.params.H + 2) }
          q := q, batch := none, bcnt := 1, status := 0 }) ∧
    (s.frame.cursor.toNat = s.params.H + 2 →
      exec (.fpBatch 1) s = .next
        { s with
          frame := { s.frame with
            len := BitVec.ofNat 16 (256 * (s.frame.len.toNat / 256) + b.toNat)
            cursor := BitVec.ofNat 32 (s.params.H + 3) }
          q := q, batch := none, bcnt := 1, status := 0 })

/-- R87, R88: the expected checksum bytes, big-endian; between them `EXPCS[7:0]` is 0; after them the next window is
PAYLOAD, or TAIL for an empty payload. -/
def Obligations.ChecksumBytesAreBigEndian : Prop :=
  ∀ (s : State) (b : Byte) (q : List Byte), s.q = b :: q →
    (s.frame.cursor.toNat = s.params.H + 3 →
      exec (.fpBatch 1) s = .next
        { s with
          frame := { s.frame with
            expcs := BitVec.ofNat 16 (256 * b.toNat), cursor := BitVec.ofNat 32 (s.params.H + 4) }
          q := q, batch := none, bcnt := 1, status := 0 }) ∧
    (s.frame.cursor.toNat = s.params.H + 4 →
      exec (.fpBatch 1) s = .next
        { s with
          frame := { s.frame with
            expcs := BitVec.ofNat 16 (256 * (s.frame.expcs.toNat / 256) + b.toNat)
            cursor := BitVec.ofNat 32 (s.params.H + 5) }
          q := q, batch := none, bcnt := 1, status := 0 }) ∧
    (s.params.Legal →
      frameWindow s.params { s.frame with cursor := BitVec.ofNat 32 (s.params.H + 5) } =
        if s.frame.len = 0 then .tail else .payload)

/-- R89: a payload byte goes to `PB[i mod C]` and into the frame checksum; no other byte of `PB` and no other register
changes. -/
def Obligations.PayloadByteIsStoredAndFolded : Prop :=
  ∀ (s : State) (b : Byte) (q : List Byte), s.q = b :: q →
    s.params.H + 5 ≤ s.frame.cursor.toNat →
    s.frame.cursor.toNat < s.params.H + 5 + s.frame.len.toNat →
    ∃ pb : Memory, exec (.fpBatch 1) s = .next
        { s with
          frame := { s.frame with
            pb := pb
            fs1 := BitVec.ofNat 8 ((s.frame.fs1.toNat + b.toNat) % 255)
            fs2 := BitVec.ofNat 8 ((s.frame.fs2.toNat + (s.frame.fs1.toNat + b.toNat) % 255) % 255)
            cursor := s.frame.cursor + 1 }
          q := q, batch := none, bcnt := 1, status := 0 } ∧
      pb.read? ((s.frame.cursor.toNat - (s.params.H + 5)) % s.params.C) = some b ∧
      ∀ j, j ≠ (s.frame.cursor.toNat - (s.params.H + 5)) % s.params.C → pb.read? j = s.frame.pb.read? j

/-- R90, R91, R92: a tail byte: a mismatch returns the cursor to 0 (RESET); the final one, matched, ends the frame with the
cursor at 0 and the checksum verdict, and ends a batch of any count after this byte; another one, matched, advances the
cursor. All of `PB` is unchanged. -/
def Obligations.TailByteAdvancesCompletesOrResets : Prop :=
  ∀ (s : State) (b : Byte) (q : List Byte) (t : Nat), s.q = b :: q → t < s.params.T →
    s.frame.cursor.toNat = s.params.H + 5 + s.frame.len.toNat + t →
    (s.params.tail[t]? ≠ some b →
      exec (.fpBatch 1) s = .next
        { s with
          frame := { s.frame with cursor := 0 }
          q := q, batch := none, bcnt := 1, status := 1 }) ∧
    (s.params.tail[t]? = some b → t + 1 < s.params.T →
      exec (.fpBatch 1) s = .next
        { s with
          frame := { s.frame with cursor := s.frame.cursor + 1 }
          q := q, batch := none, bcnt := 1, status := 0 }) ∧
    (s.params.tail[t]? = some b → t + 1 = s.params.T → ∀ n : Half, n ≠ 0 →
      exec (.fpBatch n) s = .next
        { s with
          frame := { s.frame with cursor := 0 }
          q := q, batch := none, bcnt := 1
          status := if 256 * s.frame.fs1.toNat + s.frame.fs2.toNat = s.frame.expcs.toNat then 3 else 4 })

/-- R18: while parsing, each byte moves the cursor on by exactly 1, or to 0 on a mismatch or on completion, which the status
of a batch of one byte tells. -/
def Obligations.CursorGrowsByOneOrReturnsToZero : Prop :=
  ∀ (s t : State) (b : Byte) (q : List Byte), StateInv s → s.q = b :: q → exec (.fpBatch 1) s = .next t →
    (t.status = 0 ∧ t.frame.cursor.toNat = s.frame.cursor.toNat + 1 ∨
      t.status ≠ 0 ∧ t.frame.cursor.toNat = 0) ∧
    t.frame.cursor.toNat ≤ s.params.H + 4 + 65535 + s.params.T

/-! ### The frame parser, a batch (41_frame_parser.md R81, R93 to R106) -/

/-- R104: an empty batch takes nothing and leaves UNFINISHED; all other state is unchanged. -/
def Obligations.EmptyBatchIsUnfinished : Prop :=
  ∀ s : State, s.batch = none → exec (.fpBatch 0) s = .next { s with bcnt := 0, status := 0 }

/-- R81, R95: with enough bytes in `Q` a batch completes; it takes the first `BCNT` bytes, all `n` unless it completed a
frame; its status is legal; no register of the CS unit, no error flag and nothing of the environment but `Q` changes. -/
def Obligations.BatchWithEnoughBytesCompletes : Prop :=
  ∀ (n : Half) (s : State), n.toNat ≤ s.q.length →
    ∃ t, exec (.fpBatch n) s = .next t ∧
      t.bcnt.toNat ≤ n.toNat ∧
      (t.bcnt ≠ n → t.status = 3 ∨ t.status = 4) ∧
      (t.status = 0 ∨ t.status = 1 ∨ t.status = 3 ∨ t.status = 4) ∧
      t = { s with
        frame := t.frame, status := t.status, bcnt := t.bcnt, batch := none, q := s.q.drop t.bcnt.toNat }

/-- R81: a batch of `n + 1` bytes is a batch of one byte and, unless that one completed a frame, a batch of `n` bytes: the
same frame registers, the same queue, and, when it ends, one more byte counted and RESET kept if the first byte mismatched. -/
def Obligations.BatchIsItsFirstByteThenTheRest : Prop :=
  ∀ (n : Half) (s : State) (b : Byte) (q : List Byte), s.q = b :: q → n.toNat < 65535 →
    ∃ t u v, exec (.fpBatch 1) s = .next t ∧ exec (.fpBatch n) t = .next u ∧ exec (.fpBatch (n + 1)) s = .next v ∧
      (t.status = 3 ∨ t.status = 4 → v = t) ∧
      (t.status ≠ 3 → t.status ≠ 4 →
        v.frame = u.frame ∧ v.q = u.q ∧ v.batch.isSome = u.batch.isSome ∧
        (u.batch = none → v.bcnt = u.bcnt + 1 ∧
          v.status = if t.status = 1 ∧ u.status = 0 then 1 else u.status))

/-- R57, R106: two batches of which the first took all its bytes and completed no frame leave the frame registers and the
queue as one batch of the summed count. -/
def Obligations.SplitBatchesParseAlike : Prop :=
  ∀ (a b : Half) (s t : State), a.toNat + b.toNat ≤ 65535 → exec (.fpBatch a) s = .next t → t.batch = none →
    (t.status = 0 ∨ t.status = 1) →
    ∃ u v, exec (.fpBatch b) t = .next u ∧ exec (.fpBatch (a + b)) s = .next v ∧
      v.frame = u.frame ∧ v.q = u.q ∧ v.batch.isSome = u.batch.isSome

/-- R97: when DONE stops a batch early, the bytes not taken stay at the head of `Q`, in order, and the next batch starts at
`CURSOR = 0`. -/
def Obligations.LeftoverBytesStayInTheQueue : Prop :=
  ∀ (n : Half) (s t : State), exec (.fpBatch n) s = .next t → t.batch = none → t.bcnt.toNat < n.toNat →
    (t.status = 3 ∨ t.status = 4) ∧ t.frame.cursor = 0 ∧ t.q = s.q.drop t.bcnt.toNat

/-- R93: a batch that runs out of bytes waits: it has taken all there were, fewer than it counts, and neither `STATUS` nor
`BCNT` is written. -/
def Obligations.BatchWaitsOnAnEmptyQueue : Prop :=
  (∀ (n : Half) (s t : State) (bt : Batch), exec (.fpBatch n) s = .next t → t.batch = some bt →
    t.q = [] ∧ bt.n = n ∧ bt.k = s.q.length ∧ s.q.length < n.toNat ∧ bt.done = false ∧
    t.status = s.status ∧ t.bcnt = s.bcnt) ∧
  (∀ (n : Half) (s : State), n ≠ 0 → s.q = [] →
    exec (.fpBatch n) s = .next { s with batch := some { n := n, k := 0, done := false, rst := false } })

/-- R93 and the model's choice (log 2): a waiting batch with no byte and no reset to come has no step of its own; the model's
step answers the same state. -/
def Obligations.WaitWithNothingToComeIsStuck : Prop :=
  ∀ (s : State) (bt : Batch), s.batch = some bt → s.q = [] →
    (∀ x ∈ s.pending, isTransaction x = true) → step s = .next s

/-- R93, R50: a wait does not change what a batch does: bytes that arrive during it are taken as if they had been in `Q` from
the start. -/
def Obligations.WaitingBatchGoesOnAsIfTheBytesHadBeenThere : Prop :=
  ∀ (n : Half) (s t : State) (ys : List Byte), exec (.fpBatch n) s = .next t → t.batch ≠ none → ys ≠ [] →
    step { t with q := ys } = exec (.fpBatch n) { s with q := s.q ++ ys }

/-- R66, R94, R97, R98, R99, R103 and the property of the source's section 8: any frame of the wire format that fits in one
batch, delivered in one batch at frame start, is parsed whole: VERIFIED or CHECKSUM_ERROR as its checksum field says, its
fields in the registers, its payload in `PB` (wrapped at `C`), every other `PB` entry and every other register unchanged, the
bytes after it left in `Q`. -/
def Obligations.WholeFrameIsParsed : Prop :=
  ∀ (s : State) (cmd : Byte) (expcs : Half) (xs rest : List Byte) (n : Half),
    s.params.Legal → s.frame.cursor = 0 → xs.length ≤ 65535 →
    s.q = wireFrame s.params cmd expcs xs ++ rest →
    (wireFrame s.params cmd expcs xs).length ≤ n.toNat →
    ∃ t, exec (.fpBatch n) s = .next t ∧
      t.status = (if expcs = checksum xs then 3 else 4) ∧
      t.bcnt.toNat = s.params.H + 5 + xs.length + s.params.T ∧
      t.frame.cursor = 0 ∧ t.frame.cmd = cmd ∧ t.frame.len.toNat = xs.length ∧ t.frame.expcs = expcs ∧
      frameChecksum t.frame = checksum xs ∧
      (∀ i b, xs[i]? = some b → xs.length ≤ i + s.params.C → t.frame.pb.read? (i % s.params.C) = some b) ∧
      (∀ j, s.params.C ≤ j ∨ xs.length ≤ j → t.frame.pb.read? j = s.frame.pb.read? j) ∧
      t = { s with frame := t.frame, status := t.status, bcnt := t.bcnt, batch := none, q := rest }

/-- R92, R94, R97, R101: a header that fails at position `k` is dropped, and a frame that follows it in the same batch is
parsed whole, as if it had stood at the head of `Q`: its verdict, its fields, its payload in `PB`, every other `PB` entry and
every other register unchanged, the bytes after it left in `Q`. The mismatch leaves no trace in `STATUS`; `BCNT` counts the
dropped bytes. -/
def Obligations.FrameAfterAHeaderMismatchIsParsed : Prop :=
  ∀ (s : State) (k : Nat) (x cmd : Byte) (expcs : Half) (xs rest : List Byte) (n : Half),
    s.params.Legal → s.frame.cursor = 0 → xs.length ≤ 65535 → k < s.params.H → s.params.hdr[k]? ≠ some x →
    s.q = s.params.hdr.take k ++ x :: wireFrame s.params cmd expcs xs ++ rest →
    k + 1 + (wireFrame s.params cmd expcs xs).length ≤ n.toNat →
    ∃ t, exec (.fpBatch n) s = .next t ∧
      t.status = (if expcs = checksum xs then 3 else 4) ∧
      t.bcnt.toNat = k + 1 + (s.params.H + 5 + xs.length + s.params.T) ∧
      t.frame.cursor = 0 ∧ t.frame.cmd = cmd ∧ t.frame.len.toNat = xs.length ∧ t.frame.expcs = expcs ∧
      frameChecksum t.frame = checksum xs ∧
      (∀ i b, xs[i]? = some b → xs.length ≤ i + s.params.C → t.frame.pb.read? (i % s.params.C) = some b) ∧
      (∀ j, s.params.C ≤ j ∨ xs.length ≤ j → t.frame.pb.read? j = s.frame.pb.read? j) ∧
      t = { s with frame := t.frame, status := t.status, bcnt := t.bcnt, batch := none, q := rest }

/-- R98: when a batch has completed a frame that fits the buffer, `FCS` is the checksum of `PB[0..LEN-1]`, and the status is
VERIFIED exactly where `EXPCS` is that checksum, however the frame was split into batches. -/
def Obligations.CompletedFrameChecksumIsOfTheBuffer : Prop :=
  ∀ (n : Half) (s t : State), StateInv s → frameSumCovers s.params s.frame →
    exec (.fpBatch n) s = .next t → t.batch = none → t.status = 3 ∨ t.status = 4 →
    t.frame.len.toNat ≤ t.params.C →
    ∃ xs, xs.length = t.frame.len.toNat ∧ payloadHeld t.frame xs ∧ frameChecksum t.frame = checksum xs ∧
      (t.status = 3 ↔ t.frame.expcs = checksum xs)

/-! ### Register transactions (20_memory.md) -/

/-- R39, R40: what a read of each mapped index returns, with no side effect, and that a read of any other index returns 0
and sets `ERR[2]`. `STATE`'s value is the subject of another statement; a `PB` entry never written since reset reads as a
value nothing constrains (log 4). -/
def Obligations.RegisterMapReads : Prop :=
  ∀ s : State, statusLegal s.status = true → s.params.C ≤ 65536 →
    regRead 0x0 s = .next (0, s) ∧
    regRead 0x1 s = .next (s.status.setWidth 32, s) ∧
    (∃ v, v.toNat ≤ 7 ∧ regRead 0x2 s = .next (v, s)) ∧
    regRead 0x3 s = .next (s.frame.cursor, s) ∧
    regRead 0x4 s = .next (BitVec.ofNat 32 (min s.frame.cursor.toNat s.params.H), s) ∧
    regRead 0x5 s = .next (s.frame.cmd.setWidth 32, s) ∧
    regRead 0x6 s = .next (s.frame.len.setWidth 32, s) ∧
    regRead 0x7 s = .next (s.frame.expcs.setWidth 32, s) ∧
    regRead 0x8 s = .next (BitVec.ofNat 32 (256 * s.frame.fs1.toNat + s.frame.fs2.toNat), s) ∧
    regRead 0x9 s = .next (s.bcnt.setWidth 32, s) ∧
    regRead 0xA s = .next (BitVec.ofNat 32 (256 * s.s1.toNat + s.s2.toNat), s) ∧
    regRead 0xB s = .next (s.err &&& 7, s) ∧
    regRead 0xC s = .next (BitVec.ofNat 32 s.params.C, s) ∧
    regRead 0xD s = .next (BitVec.ofNat 32 s.params.H, s) ∧
    regRead 0xE s = .next (BitVec.ofNat 32 s.params.T, s) ∧
    (∀ i b, i < s.params.C → s.frame.pb.read? i = some b →
      regRead (BitVec.ofNat 32 (0x10000 + i)) s = .next (b.setWidth 32, s)) ∧
    (∀ i, i < s.params.C → s.frame.pb.read? i = none →
      regRead (BitVec.ofNat 32 (0x10000 + i)) s = .next ((Config.pbDraw s.resets i).setWidth 32, s)) ∧
    (∀ idx : Word, 0xE < idx.toNat → (idx.toNat < 0x10000 ∨ 0x10000 + s.params.C ≤ idx.toNat) →
      regRead idx s = .next (0, { s with err := s.err ||| 4 }))

/-- R21: a read of `STATE` names the one window the cursor stands in; with the cursor back at 0, and after reset, it is
HEADER. -/
def Obligations.StateNamesTheWindow : Prop :=
  (∀ s : State, cursorInFrame s.params s.frame →
    ∃ v : Word, regRead 0x2 s = .next (v, s) ∧ v.toNat ≤ 7 ∧
      (v = 0 ↔ s.frame.cursor.toNat < s.params.H) ∧
      (v = 1 ↔ s.frame.cursor.toNat = s.params.H) ∧
      (v = 2 ↔ s.frame.cursor.toNat = s.params.H + 1) ∧
      (v = 3 ↔ s.frame.cursor.toNat = s.params.H + 2) ∧
      (v = 4 ↔ s.frame.cursor.toNat = s.params.H + 3) ∧
      (v = 5 ↔ s.frame.cursor.toNat = s.params.H + 4) ∧
      (v = 6 ↔ s.params.H + 5 ≤ s.frame.cursor.toNat ∧
        s.frame.cursor.toNat < s.params.H + 5 + s.frame.len.toNat) ∧
      (v = 7 ↔ s.params.H + 5 + s.frame.len.toNat ≤ s.frame.cursor.toNat ∧
        s.frame.cursor.toNat < s.params.H + 5 + s.frame.len.toNat + s.params.T)) ∧
  (∀ s : State, s.params.Legal → s.frame.cursor = 0 → regRead 0x2 s = .next (0, s)) ∧
  regRead 0x2 State.reset = .next (0, State.reset)

/-- U6 and the model's choice (log 8): a read of `STATUS` stops only where it holds a code it never holds. -/
def Obligations.StatusReadStopsOnNeverHeldCodes : Prop :=
  ∀ s : State,
    (s.status = 2 ∨ s.status = 5 ∨ s.status = 6 ∨ s.status = 7 →
      regRead 0x1 s = .fault .statusCodeNeverHeld) ∧
    (s.status = 0 ∨ s.status = 1 ∨ s.status = 3 ∨ s.status = 4 →
      regRead 0x1 s = .next (s.status.setWidth 32, s))

/-- R41: a write to any index but 0 sets `ERR[1]` and has no other effect, a write to index 0 executes the word; and nothing
but an executed command and the block reset changes any register other than `ERR`. -/
def Obligations.OnlyCommandsAndResetChangeRegisters : Prop :=
  (∀ (idx v : Word) (s : State), idx ≠ 0 → regWrite idx v s = .next { s with err := s.err ||| 2 }) ∧
  (∀ (v : Word) (s : State), regWrite 0 v s = execute v s) ∧
  (∀ (x : Input) (s t : State), perform x s = .next t → x ≠ .rst true →
    (∀ v i, x = .regWrite 0 v → decode v ≠ .ok i) →
    t.frame = s.frame ∧ t.status = s.status ∧ t.bcnt = s.bcnt ∧ t.s1 = s.s1 ∧ t.s2 = s.s2 ∧ t.batch = s.batch ∧
    t.params = s.params)

/-- R30, R110, R111: between block resets an error flag is never cleared; one step sets at most one, and it sets one only by a
command error, which changes nothing else; a legal command sets none. -/
def Obligations.ErrorFlagsAreSticky : Prop :=
  (∀ (i : Instr) (s t : State), exec i s = .next t → t.err = s.err) ∧
  ∀ s t : State, step s = .next t →
    (∃ rest, nextInput s = some (.rst true, rest)) ∨
    t.err = s.err ∨
    (∃ x rest, nextInput s = some (x, rest) ∧
      ((∃ v e, x = .regWrite 0 v ∧ decode v = .error e ∧
          t = { s with pending := rest, err := s.err ||| 1 }) ∨
       (∃ idx v, x = .regWrite idx v ∧ idx ≠ 0 ∧ t = { s with pending := rest, err := s.err ||| 2 }) ∨
       (∃ idx, x = .regRead idx ∧ regAt s.params idx = none ∧
          t = { s with pending := rest, err := s.err ||| 4, replies := s.replies ++ [0] })))

/-! ### Steps, the port, reset (20_memory.md R49; 70_reset_and_hazards.md) -/

/-- R41, R53, R58: with the port open and a write of a command word to `CMDW` next, a step is that command, at the state
with the write taken off the inputs. -/
def Obligations.StepRunsTheDecodedCommand : Prop :=
  ∀ (s : State) (w : Word) (i : Instr) (rest : List Input), idle s → s.pending = .regWrite 0 w :: rest →
    decode w = .ok i → step s = exec i { s with pending := rest }

/-- A word placed for the next fetch is run by the very next step (log 7). -/
def Obligations.PlacedWordRunsNext : Prop :=
  ∀ (s : State) (i : Instr),
    step (s.withFetchWord 32 (encode i).toNat) = exec i { s with batch := none, rstAsserted := false }

/-- R40: with the port open and a read next, a step returns the read's value to the issuer. -/
def Obligations.ReadStepRepliesToTheIssuer : Prop :=
  ∀ (s t : State) (idx v : Word) (rest : List Input), idle s → s.pending = .regRead idx :: rest →
    regRead idx { s with pending := rest } = .next (v, t) → step s = .next { t with replies := t.replies ++ [v] }

/-- R32: the byte source's step appends one byte to `Q` and changes nothing else. -/
def Obligations.ByteArrivalAppendsToTheQueue : Prop :=
  ∀ (s : State) (b : Byte) (rest : List Input), inputTurn s → nextInput s = some (.byte b, rest) →
    step s = .next { s with pending := rest, q := s.q ++ [b] }

/-- R32, R50: no step reorders, duplicates or drops a byte of `Q` other than by taking it from the head, and only a batch
takes bytes. -/
def Obligations.QueueIsFirstInFirstOut : Prop :=
  ∀ s t : State, step s = .next t →
    (∃ b rest, nextInput s = some (.byte b, rest) ∧ t.q = s.q ++ [b]) ∨
    t.q = s.q ∨
    (∃ k ≤ s.q.length, t.q = s.q.drop k ∧
      (s.batch ≠ none ∨ ∃ w n rest, nextInput s = some (.regWrite 0 w, rest) ∧ decode w = .ok (.fpBatch n)))

/-- R49, R93, R135: while a batch waits for a byte, no transaction of the issuer starts: the issuer gets no reply, its
transactions stay in order, and no register changes but by a reset, which alone ends such a wait. -/
def Obligations.WaitingBatchBlocksThePort : Prop :=
  ∀ (s t : State) (bt : Batch), s.batch = some bt → s.q = [] → step s = .next t →
    t.replies = s.replies ∧ t.pending.filter isTransaction = s.pending.filter isTransaction ∧
    ((∃ rest, nextInput s = some (.rst true, rest)) ∨
      (t.batch = some bt ∧ t.frame = s.frame ∧ t.status = s.status ∧ t.bcnt = s.bcnt ∧ t.s1 = s.s1 ∧ t.s2 = s.s2 ∧
        t.err = s.err))

/-- R34, R122, R124: the block reset sets every register to its reset value, leaves every `PB` entry unwritten, ends any
wait, leaves `Q` and the parameters alone, and leaves RST asserted. -/
def Obligations.BlockResetSetsEveryRegister : Prop :=
  ∀ (s : State) (rest : List Input), inputTurn s → nextInput s = some (.rst true, rest) →
    ∃ t, step s = .next t ∧
      t.frame.cursor = 0 ∧ t.frame.cmd = 0 ∧ t.frame.len = 0 ∧ t.frame.expcs = 0 ∧ t.frame.fs1 = 0 ∧
      t.frame.fs2 = 0 ∧ (∀ i, t.frame.pb.read? i = none) ∧
      t.status = 0 ∧ t.bcnt = 0 ∧ t.s1 = 0 ∧ t.s2 = 0 ∧ t.err = 0 ∧ t.batch = none ∧
      frameChecksum t.frame = 0 ∧ csOut t = 0 ∧ headerMatched t.params t.frame = 0 ∧
      (s.params.Legal → frameWindow t.params t.frame = .header) ∧
      t.q = s.q ∧ t.params = s.params ∧ t.pending = rest ∧ t.replies = s.replies ∧ t.rstAsserted = true

/-- R34, R125: the state `State.reset`: every register at the spec's reset value, no batch. (`Q` empty, RST released and
nothing pending are the model's choices, log 6, and not part of this statement.) -/
def Obligations.ResetStateValues : Prop :=
  State.reset.frame.cursor = 0 ∧ State.reset.frame.cmd = 0 ∧ State.reset.frame.len = 0 ∧
  State.reset.frame.expcs = 0 ∧ State.reset.frame.fs1 = 0 ∧ State.reset.frame.fs2 = 0 ∧
  (∀ i, State.reset.frame.pb.read? i = none) ∧
  State.reset.status = 0 ∧ State.reset.bcnt = 0 ∧ State.reset.s1 = 0 ∧ State.reset.s2 = 0 ∧
  State.reset.err = 0 ∧ State.reset.batch = none ∧
  frameWindow State.reset.params State.reset.frame = .header ∧ csOut State.reset = 0

/-- R123: a reset during a wait ends the batch at once: nothing goes back to `Q`, the end-of-batch writes do not happen, the
command completes with no further effect; and only a reset or an arriving byte ends a wait. -/
def Obligations.ResetEndsAWaitingBatch : Prop :=
  ∀ (s : State) (bt : Batch), s.batch = some bt → s.q = [] →
    (∀ rest, nextInput s = some (.rst true, rest) →
      ∃ t, step s = .next t ∧ t.batch = none ∧ t.q = [] ∧ t.bcnt = 0 ∧ t.status = 0 ∧ t.pending = rest ∧
        t.replies = s.replies) ∧
    (∀ t, step s = .next t → t.batch ≠ some bt → ∃ rest, nextInput s = some (.rst true, rest)) ∧
    (∀ t, step s = .next t → t.q ≠ [] → ∃ b rest, nextInput s = some (.byte b, rest))

/-- R122 and the model's inference (log 5): while RST is asserted FCFP executes nothing: no reply, no transaction leaves the
inputs, no byte leaves `Q`, and no register changes but by another assertion of RST. -/
def Obligations.NothingExecutesWhileResetIsAsserted : Prop :=
  ∀ s t : State, s.rstAsserted = true → s.batch = none → step s = .next t →
    t.replies = s.replies ∧ t.pending.filter isTransaction = s.pending.filter isTransaction ∧
    (t.q = s.q ∨ ∃ b, t.q = s.q ++ [b]) ∧ t.batch = none ∧
    ((∃ rest, nextInput s = some (.rst true, rest)) ∨
      (t.frame = s.frame ∧ t.status = s.status ∧ t.bcnt = s.bcnt ∧ t.s1 = s.s1 ∧ t.s2 = s.s2 ∧ t.err = s.err))

/-- R122: the release of RST: nothing else changes, FCFP is idle once no batch is in progress, and the next transaction
executes normally: a legal command word as its command, any other transaction with its own effect. -/
def Obligations.ReleasedResetLetsTheNextTransactionRun : Prop :=
  (∀ (s : State) (rest : List Input), inputTurn s → nextInput s = some (.rst false, rest) →
    step s = .next { s with pending := rest, rstAsserted := false } ∧
    (s.batch = none → idle { s with pending := rest, rstAsserted := false })) ∧
  (∀ (s : State) (x : Input) (rest : List Input), s.batch = none → s.pending = .rst false :: x :: rest →
    ∃ t, step s = .next t ∧ step t = perform x { s with pending := rest, rstAsserted := false } ∧
      ∀ (w : Word) (i : Instr), x = .regWrite 0 w → decode w = .ok i →
        step t = exec i { s with pending := rest, rstAsserted := false })

/-! ### The machine as a whole -/

/-- R8: the parameters are fixed for the lifetime of the hardware: no step changes them. -/
def Obligations.ParametersNeverChange : Prop :=
  ∀ s t : State, step s = .next t → t.params = s.params

/-- The reset state meets the invariant. -/
def Obligations.ResetMeetsTheInvariant : Prop :=
  StateInv State.reset ∧ frameSumCovers State.reset.params State.reset.frame

/-- R19, R30, R36, R76 and the payload buffer's canonical form: every step keeps the invariant, from every state that meets
it. -/
def Obligations.EveryStepKeepsTheInvariant : Prop :=
  ∀ s t : State, StateInv s → step s = .next t → StateInv t

/-- R26, R98, R132: every step keeps that `FCS` covers exactly the payload bytes taken so far, and that `PB` holds them. -/
def Obligations.EveryStepKeepsFrameSumCovering : Prop :=
  ∀ s t : State, StateInv s → frameSumCovers s.params s.frame → step s = .next t → frameSumCovers t.params t.frame

/-- R108: no event stops FCFP: from every state that meets the invariant, a step answers a next state. -/
def Obligations.NothingStopsTheMachine : Prop :=
  ∀ s : State, StateInv s → ∃ t, step s = .next t
end

