-- ==== Sys2Proof/Laws/Checksum.lean ====
section
/-! SUPPORT. Byte pairs and the fold: what each computes as a number, and the ranges of the accumulators. -/

namespace Sys2Proof.Machine

theorem packBytes_toNat (a b : Byte) : (packBytes a b).toNat = 256 * a.toNat + b.toNat := by
  have ha := a.isLt
  have hb := b.isLt
  have h : a.toNat <<< 8 % 65536 = a.toNat <<< 8 := Nat.mod_eq_of_lt (by rw [Nat.shiftLeft_eq]; omega)
  simp only [packBytes, BitVec.toNat_or, BitVec.toNat_shiftLeft, BitVec.toNat_setWidth]
  rw [Nat.mod_eq_of_lt (by omega : a.toNat < 2 ^ 16), Nat.mod_eq_of_lt (by omega : b.toNat < 2 ^ 16), h,
    ← Nat.shiftLeft_add_eq_or_of_lt hb, Nat.shiftLeft_eq]
  omega

/-- A first byte of a big-endian pair (41_frame_parser.md R85, R87). -/
theorem highByte_toNat (b : Byte) : (highByte b).toNat = 256 * b.toNat := by
  have h : highByte b = packBytes b 0 := by simp [highByte, packBytes]
  rw [h, packBytes_toNat]; rfl

/-- A second byte of a big-endian pair replaces the low byte (41_frame_parser.md R86, R88). -/
theorem lowByte_toNat (v : Half) (b : Byte) : (lowByte v b).toNat = 256 * (v.toNat / 256) + b.toNat := by
  have h : lowByte v b = packBytes (v.extractLsb' 8 8) b := by
    ext i hi
    simp only [lowByte, packBytes, BitVec.getElem_or, BitVec.getElem_and, BitVec.getElem_setWidth,
      BitVec.getElem_shiftLeft]
    interval_cases i <;> simp
  have hv := v.isLt
  rw [h, packBytes_toNat, BitVec.extractLsb'_toNat, Nat.shiftRight_eq_div_pow]
  omega

/-- Two packed pairs agree only where both bytes do. -/
theorem packBytes_inj {a b c d : Byte} : packBytes a b = packBytes c d ↔ a = c ∧ b = d := by
  constructor
  · intro h
    have h := congrArg BitVec.toNat h
    simp only [packBytes_toNat] at h
    exact ⟨BitVec.eq_of_toNat_eq (by omega), BitVec.eq_of_toNat_eq (by omega)⟩
  · rintro ⟨rfl, rfl⟩; rfl

theorem fold_fst_toNat (acc : Byte × Byte) (b : Byte) :
    (fold acc b).1.toNat = (acc.1.toNat + b.toNat) % 255 := by
  simp only [fold, BitVec.toNat_ofNat]; omega

theorem fold_snd_toNat (acc : Byte × Byte) (b : Byte) :
    (fold acc b).2.toNat = (acc.2.toNat + (acc.1.toNat + b.toNat) % 255) % 255 := by
  simp only [fold, BitVec.toNat_ofNat]; omega

theorem fold_fst_le (acc : Byte × Byte) (b : Byte) : (fold acc b).1.toNat ≤ 254 := by
  rw [fold_fst_toNat]; omega

theorem fold_snd_le (acc : Byte × Byte) (b : Byte) : (fold acc b).2.toNat ≤ 254 := by
  rw [fold_snd_toNat]; omega

@[simp] theorem foldAll_nil (acc : Byte × Byte) : foldAll acc [] = acc := rfl

@[simp] theorem foldAll_cons (acc : Byte × Byte) (b : Byte) (xs : List Byte) :
    foldAll acc (b :: xs) = foldAll (fold acc b) xs := rfl

@[simp] theorem foldAll_append (acc : Byte × Byte) (xs ys : List Byte) :
    foldAll acc (xs ++ ys) = foldAll (foldAll acc xs) ys := List.foldl_append ..

/-- The accumulators stay in 0..254 (40_checksum.md R76). -/
theorem foldAll_le (xs : List Byte) : ∀ acc : Byte × Byte, acc.1.toNat ≤ 254 → acc.2.toNat ≤ 254 →
    (foldAll acc xs).1.toNat ≤ 254 ∧ (foldAll acc xs).2.toNat ≤ 254 := by
  induction xs with
  | nil => exact fun acc h1 h2 => ⟨h1, h2⟩
  | cons b xs ih => exact fun acc _ _ => ih _ (fold_fst_le acc b) (fold_snd_le acc b)

end Sys2Proof.Machine
end

