-- ==== Sys2Proof/Laws/Decode.lean ====
section
/-! SUPPORT. What the fields of an encoded command are, and that no word matches two rows of the opcode map. -/

namespace Sys2Proof

@[simp] theorem opdLow_encode_csByte (b : Byte) : opdLow (encode (.csByte b)) = b := by
  ext i hi
  simp only [opdLow, encode, BitVec.getElem_extractLsb', BitVec.getLsbD_or, BitVec.getLsbD_setWidth]
  interval_cases i <;> simp

@[simp] theorem opdField_encode_fpBatch (n : Half) : opdField (encode (.fpBatch n)) = n := by
  ext i hi
  simp only [opdField, encode, BitVec.getElem_extractLsb', BitVec.getLsbD_or, BitVec.getLsbD_setWidth]
  interval_cases i <;> simp

/-- A word that matches one row has that row's opcode field, so it matches no other (30_encoding.md R58). -/
theorem opField_of_hits {r : Row} (hr : r ∈ opcodeMap) {w : Word} (h : r.hits w = true) :
    opField w = opField r.bits := by
  have hw := beq_iff_eq.1 h
  simp only [opcodeMap, List.mem_cons, List.not_mem_nil, or_false] at hr
  have ones : opField r.mask = 0xFF := by rcases hr with rfl | rfl | rfl <;> rfl
  have key : opField (w &&& r.mask) = opField w := by
    have : opField (w &&& r.mask) = opField w &&& opField r.mask := BitVec.extractLsb'_and
    rw [this, ones]
    exact BitVec.and_allOnes
  rw [← key, hw]

theorem encode_csByte_toNat (b : Byte) : (encode (.csByte b)).toNat = 0x02000000 + b.toNat := by
  have hb := b.isLt
  simp only [encode, BitVec.toNat_or, BitVec.toNat_setWidth]
  rw [Nat.mod_eq_of_lt (by omega : b.toNat < 2 ^ 32)]
  exact (Nat.shiftLeft_add_eq_or_of_lt hb 0x020000).symm

theorem encode_fpBatch_toNat (n : Half) : (encode (.fpBatch n)).toNat = 0x03000000 + n.toNat := by
  have hn := n.isLt
  simp only [encode, BitVec.toNat_or, BitVec.toNat_setWidth]
  rw [Nat.mod_eq_of_lt (by omega : n.toNat < 2 ^ 32)]
  exact (Nat.shiftLeft_add_eq_or_of_lt hn 0x0300).symm

/-- A command word as a number, by its fields (30_encoding.md R55, R56). -/
theorem word_toNat (w : Word) :
    w.toNat = 0x1000000 * (opField w).toNat + 0x10000 * (rsvField w).toNat + (opdField w).toNat ∧
      (opdField w).toNat = 256 * (opdHigh w).toNat + (opdLow w).toNat := by
  have := w.isLt
  simp only [opField, rsvField, opdField, opdHigh, opdLow, BitVec.extractLsb'_toNat, Nat.shiftRight_eq_div_pow]
  omega

/-- Two command words with the same fields are the same word. -/
theorem word_ext_iff (w v : Word) : w = v ↔
    opField w = opField v ∧ rsvField w = rsvField v ∧ opdHigh w = opdHigh v ∧ opdLow w = opdLow v := by
  refine ⟨fun h => by subst h; exact ⟨rfl, rfl, rfl, rfl⟩, fun ⟨h1, h2, h3, h4⟩ => BitVec.eq_of_toNat_eq ?_⟩
  have hw := word_toNat w
  have hv := word_toNat v
  rw [hw.1, hw.2, hv.1, hv.2, h1, h2, h3, h4]

/-- Matching a row, by fields (30_encoding.md R58). -/
theorem hits_iff (r : Row) (w : Word) : r.hits w = true ↔
    opField w &&& opField r.mask = opField r.bits ∧ rsvField w &&& rsvField r.mask = rsvField r.bits ∧
      opdHigh w &&& opdHigh r.mask = opdHigh r.bits ∧ opdLow w &&& opdLow r.mask = opdLow r.bits := by
  unfold Row.hits
  rw [beq_iff_eq, word_ext_iff]
  simp only [opField, rsvField, opdHigh, opdLow, BitVec.extractLsb'_and]

theorem rowCsClr_hits_iff (w : Word) : rowCsClr.hits w = true ↔
    opField w = 0x01 ∧ rsvField w = 0 ∧ opdHigh w = 0 ∧ opdLow w = 0 := by
  rw [hits_iff]
  exact and_congr (by rw [show opField rowCsClr.mask = BitVec.allOnes 8 from rfl, BitVec.and_allOnes]; rfl)
    (and_congr (by rw [show rsvField rowCsClr.mask = BitVec.allOnes 8 from rfl, BitVec.and_allOnes]; rfl)
      (and_congr (by rw [show opdHigh rowCsClr.mask = BitVec.allOnes 8 from rfl, BitVec.and_allOnes]; rfl)
        (by rw [show opdLow rowCsClr.mask = BitVec.allOnes 8 from rfl, BitVec.and_allOnes]; rfl)))

theorem rowCsByte_hits_iff (w : Word) : rowCsByte.hits w = true ↔
    opField w = 0x02 ∧ rsvField w = 0 ∧ opdHigh w = 0 := by
  have h : opdLow w &&& opdLow rowCsByte.mask = opdLow rowCsByte.bits :=
    (congrArg (opdLow w &&& ·) (show opdLow rowCsByte.mask = 0 from rfl)).trans BitVec.and_zero
  rw [hits_iff, and_iff_left h]
  exact and_congr (by rw [show opField rowCsByte.mask = BitVec.allOnes 8 from rfl, BitVec.and_allOnes]; rfl)
    (and_congr (by rw [show rsvField rowCsByte.mask = BitVec.allOnes 8 from rfl, BitVec.and_allOnes]; rfl)
      (by rw [show opdHigh rowCsByte.mask = BitVec.allOnes 8 from rfl, BitVec.and_allOnes]; rfl))

theorem rowFpBatch_hits_iff (w : Word) : rowFpBatch.hits w = true ↔
    opField w = 0x03 ∧ rsvField w = 0 := by
  have h : opdLow w &&& opdLow rowFpBatch.mask = opdLow rowFpBatch.bits :=
    (congrArg (opdLow w &&& ·) (show opdLow rowFpBatch.mask = 0 from rfl)).trans BitVec.and_zero
  have h' : opdHigh w &&& opdHigh rowFpBatch.mask = opdHigh rowFpBatch.bits :=
    (congrArg (opdHigh w &&& ·) (show opdHigh rowFpBatch.mask = 0 from rfl)).trans BitVec.and_zero
  rw [hits_iff, and_iff_left h, and_iff_left h']
  exact and_congr (by rw [show opField rowFpBatch.mask = BitVec.allOnes 8 from rfl, BitVec.and_allOnes]; rfl)
    (by rw [show rsvField rowFpBatch.mask = BitVec.allOnes 8 from rfl, BitVec.and_allOnes]; rfl)

end Sys2Proof
end

