-- ==== Sys2Proof/Laws/State.lean ====
section
/-! SUPPORT. One lemma per field per named update of State, each true by rfl, so that no later proof unfolds an update. -/

namespace Sys2Proof.Machine

section raiseCmdError
variable (e : CmdError) (s : State)
@[simp] theorem raiseCmdError_params : (raiseCmdError e s).params = s.params := rfl
@[simp] theorem raiseCmdError_frame : (raiseCmdError e s).frame = s.frame := rfl
@[simp] theorem raiseCmdError_status : (raiseCmdError e s).status = s.status := rfl
@[simp] theorem raiseCmdError_bcnt : (raiseCmdError e s).bcnt = s.bcnt := rfl
@[simp] theorem raiseCmdError_s1 : (raiseCmdError e s).s1 = s.s1 := rfl
@[simp] theorem raiseCmdError_s2 : (raiseCmdError e s).s2 = s.s2 := rfl
@[simp] theorem raiseCmdError_err : (raiseCmdError e s).err = s.err ||| (1 <<< e.bit) := rfl
@[simp] theorem raiseCmdError_q : (raiseCmdError e s).q = s.q := rfl
@[simp] theorem raiseCmdError_batch : (raiseCmdError e s).batch = s.batch := rfl
@[simp] theorem raiseCmdError_rstAsserted : (raiseCmdError e s).rstAsserted = s.rstAsserted := rfl
@[simp] theorem raiseCmdError_pending : (raiseCmdError e s).pending = s.pending := rfl
@[simp] theorem raiseCmdError_replies : (raiseCmdError e s).replies = s.replies := rfl
@[simp] theorem raiseCmdError_resets : (raiseCmdError e s).resets = s.resets := rfl
end raiseCmdError

section blockReset
variable (s : State)
@[simp] theorem blockReset_params : (blockReset s).params = s.params := rfl
@[simp] theorem blockReset_frame : (blockReset s).frame = Frame.reset := rfl
@[simp] theorem blockReset_status : (blockReset s).status = 0 := rfl
@[simp] theorem blockReset_bcnt : (blockReset s).bcnt = 0 := rfl
@[simp] theorem blockReset_s1 : (blockReset s).s1 = 0 := rfl
@[simp] theorem blockReset_s2 : (blockReset s).s2 = 0 := rfl
@[simp] theorem blockReset_err : (blockReset s).err = 0 := rfl
@[simp] theorem blockReset_q : (blockReset s).q = s.q := rfl
@[simp] theorem blockReset_batch : (blockReset s).batch = none := rfl
@[simp] theorem blockReset_rstAsserted : (blockReset s).rstAsserted = true := rfl
@[simp] theorem blockReset_pending : (blockReset s).pending = s.pending := rfl
@[simp] theorem blockReset_replies : (blockReset s).replies = s.replies := rfl
@[simp] theorem blockReset_resets : (blockReset s).resets = s.resets + 1 := rfl
end blockReset

section releaseReset
variable (s : State)
@[simp] theorem releaseReset_params : (releaseReset s).params = s.params := rfl
@[simp] theorem releaseReset_frame : (releaseReset s).frame = s.frame := rfl
@[simp] theorem releaseReset_status : (releaseReset s).status = s.status := rfl
@[simp] theorem releaseReset_bcnt : (releaseReset s).bcnt = s.bcnt := rfl
@[simp] theorem releaseReset_s1 : (releaseReset s).s1 = s.s1 := rfl
@[simp] theorem releaseReset_s2 : (releaseReset s).s2 = s.s2 := rfl
@[simp] theorem releaseReset_err : (releaseReset s).err = s.err := rfl
@[simp] theorem releaseReset_q : (releaseReset s).q = s.q := rfl
@[simp] theorem releaseReset_batch : (releaseReset s).batch = s.batch := rfl
@[simp] theorem releaseReset_rstAsserted : (releaseReset s).rstAsserted = false := rfl
@[simp] theorem releaseReset_pending : (releaseReset s).pending = s.pending := rfl
@[simp] theorem releaseReset_replies : (releaseReset s).replies = s.replies := rfl
@[simp] theorem releaseReset_resets : (releaseReset s).resets = s.resets := rfl
end releaseReset

section appendByte
variable (b : Byte) (s : State)
@[simp] theorem appendByte_params : (appendByte b s).params = s.params := rfl
@[simp] theorem appendByte_frame : (appendByte b s).frame = s.frame := rfl
@[simp] theorem appendByte_status : (appendByte b s).status = s.status := rfl
@[simp] theorem appendByte_bcnt : (appendByte b s).bcnt = s.bcnt := rfl
@[simp] theorem appendByte_s1 : (appendByte b s).s1 = s.s1 := rfl
@[simp] theorem appendByte_s2 : (appendByte b s).s2 = s.s2 := rfl
@[simp] theorem appendByte_err : (appendByte b s).err = s.err := rfl
@[simp] theorem appendByte_q : (appendByte b s).q = s.q ++ [b] := rfl
@[simp] theorem appendByte_batch : (appendByte b s).batch = s.batch := rfl
@[simp] theorem appendByte_rstAsserted : (appendByte b s).rstAsserted = s.rstAsserted := rfl
@[simp] theorem appendByte_pending : (appendByte b s).pending = s.pending := rfl
@[simp] theorem appendByte_replies : (appendByte b s).replies = s.replies := rfl
@[simp] theorem appendByte_resets : (appendByte b s).resets = s.resets := rfl
end appendByte

section reply
variable (v : Word) (s : State)
@[simp] theorem reply_params : (reply v s).params = s.params := rfl
@[simp] theorem reply_frame : (reply v s).frame = s.frame := rfl
@[simp] theorem reply_status : (reply v s).status = s.status := rfl
@[simp] theorem reply_bcnt : (reply v s).bcnt = s.bcnt := rfl
@[simp] theorem reply_s1 : (reply v s).s1 = s.s1 := rfl
@[simp] theorem reply_s2 : (reply v s).s2 = s.s2 := rfl
@[simp] theorem reply_err : (reply v s).err = s.err := rfl
@[simp] theorem reply_q : (reply v s).q = s.q := rfl
@[simp] theorem reply_batch : (reply v s).batch = s.batch := rfl
@[simp] theorem reply_rstAsserted : (reply v s).rstAsserted = s.rstAsserted := rfl
@[simp] theorem reply_pending : (reply v s).pending = s.pending := rfl
@[simp] theorem reply_replies : (reply v s).replies = s.replies ++ [v] := rfl
@[simp] theorem reply_resets : (reply v s).resets = s.resets := rfl
end reply

section endBatch
variable (bt : Batch) (s : State)
@[simp] theorem endBatch_params : (endBatch bt s).params = s.params := rfl
@[simp] theorem endBatch_frame : (endBatch bt s).frame = s.frame := rfl
@[simp] theorem endBatch_status : (endBatch bt s).status = endStatus bt s.frame := rfl
@[simp] theorem endBatch_bcnt : (endBatch bt s).bcnt = BitVec.ofNat 16 bt.k := rfl
@[simp] theorem endBatch_s1 : (endBatch bt s).s1 = s.s1 := rfl
@[simp] theorem endBatch_s2 : (endBatch bt s).s2 = s.s2 := rfl
@[simp] theorem endBatch_err : (endBatch bt s).err = s.err := rfl
@[simp] theorem endBatch_q : (endBatch bt s).q = s.q := rfl
@[simp] theorem endBatch_batch : (endBatch bt s).batch = none := rfl
@[simp] theorem endBatch_rstAsserted : (endBatch bt s).rstAsserted = s.rstAsserted := rfl
@[simp] theorem endBatch_pending : (endBatch bt s).pending = s.pending := rfl
@[simp] theorem endBatch_replies : (endBatch bt s).replies = s.replies := rfl
@[simp] theorem endBatch_resets : (endBatch bt s).resets = s.resets := rfl
end endBatch

section withFetchWord
variable (s : State) (nbits w : Nat)
@[simp] theorem withFetchWord_params : (s.withFetchWord nbits w).params = s.params := rfl
@[simp] theorem withFetchWord_frame : (s.withFetchWord nbits w).frame = s.frame := rfl
@[simp] theorem withFetchWord_q : (s.withFetchWord nbits w).q = s.q := rfl
@[simp] theorem withFetchWord_batch : (s.withFetchWord nbits w).batch = none := rfl
@[simp] theorem withFetchWord_rstAsserted : (s.withFetchWord nbits w).rstAsserted = false := rfl
@[simp] theorem withFetchWord_pending :
    (s.withFetchWord nbits w).pending = .regWrite 0 (tableWord nbits w) :: s.pending := rfl
end withFetchWord

end Sys2Proof.Machine
end

