-- ==== Sys2Proof/Laws/Parser.lean ====
section
/-! SUPPORT. The frame parser: what one byte can do, and what the batch loop keeps. -/

namespace Sys2Proof.Machine

section window
variable {p : Params} {c : Nat} {len : Half}

theorem windowAt_header (h : c < p.H) : windowAt p c len = .header := by simp [windowAt, h]
theorem windowAt_cmd (h : c = p.H) : windowAt p c len = .cmd := by simp [windowAt, h]
theorem windowAt_lenHi (h : c = p.H + 1) : windowAt p c len = .lenHi := by simp [windowAt, h]
theorem windowAt_lenLo (h : c = p.H + 2) : windowAt p c len = .lenLo := by simp [windowAt, h]
theorem windowAt_csHi (h : c = p.H + 3) : windowAt p c len = .csHi := by simp [windowAt, h]
theorem windowAt_csLo (h : c = p.H + 4) : windowAt p c len = .csLo := by simp [windowAt, h]

theorem windowAt_payload (h : p.H + 5 ≤ c) (h' : c < p.H + 5 + len.toNat) : windowAt p c len = .payload := by
  unfold windowAt
  rw [if_neg (by omega), if_neg (by omega), if_neg (by omega), if_neg (by omega), if_neg (by omega),
    if_neg (by omega), if_pos h']

theorem windowAt_tail (h : p.H + 5 + len.toNat ≤ c) : windowAt p c len = .tail := by
  unfold windowAt
  rw [if_neg (by omega), if_neg (by omega), if_neg (by omega), if_neg (by omega), if_neg (by omega),
    if_neg (by omega), if_neg (by omega)]

/-- The windows, read off the cursor: exactly one holds (10_state.md R21; 30_encoding.md R66). -/
theorem windowAt_cases (p : Params) (c : Nat) (len : Half) :
    (windowAt p c len = .header ∧ c < p.H) ∨
    (windowAt p c len = .cmd ∧ c = p.H) ∨
    (windowAt p c len = .lenHi ∧ c = p.H + 1) ∨
    (windowAt p c len = .lenLo ∧ c = p.H + 2) ∨
    (windowAt p c len = .csHi ∧ c = p.H + 3) ∨
    (windowAt p c len = .csLo ∧ c = p.H + 4) ∨
    (windowAt p c len = .payload ∧ p.H + 5 ≤ c ∧ c < p.H + 5 + len.toNat) ∨
    (windowAt p c len = .tail ∧ p.H + 5 + len.toNat ≤ c) := by
  unfold windowAt
  split_ifs <;> simp <;> omega

end window

/-- What one byte can do: one arm of 41_frame_parser.md R82, with everything that arm changes. -/
theorem stepByte_cases (p : Params) (f : Frame) (b : Byte) :
    (stepByte p f b = mismatch f ∧ (f.cursor.toNat < p.H ∨ p.H + 5 + f.len.toNat ≤ f.cursor.toNat)) ∨
    (stepByte p f b = ⟨{ f with cursor := f.cursor + 1 }, .accepted⟩ ∧ f.cursor.toNat < p.H ∧
      p.hdr[f.cursor.toNat]? = some b) ∨
    (stepByte p f b = cmdByte p f b ∧ f.cursor.toNat = p.H) ∨
    (stepByte p f b = lenHiByte p f b ∧ f.cursor.toNat = p.H + 1) ∨
    (stepByte p f b = lenLoByte p f b ∧ f.cursor.toNat = p.H + 2) ∨
    (stepByte p f b = csHiByte p f b ∧ f.cursor.toNat = p.H + 3) ∨
    (stepByte p f b = csLoByte p f b ∧ f.cursor.toNat = p.H + 4) ∨
    (stepByte p f b = payloadByte p f b ∧ p.H + 5 ≤ f.cursor.toNat ∧ f.cursor.toNat < p.H + 5 + f.len.toNat) ∨
    (stepByte p f b = ⟨{ f with cursor := f.cursor + 1 }, .accepted⟩ ∧ p.H + 5 + f.len.toNat ≤ f.cursor.toNat ∧
      tailIndex p f + 1 < p.T ∧ p.tail[tailIndex p f]? = some b) ∨
    (stepByte p f b = finalTail f ∧ p.H + 5 + f.len.toNat ≤ f.cursor.toNat ∧
      tailIndex p f + 1 = p.T ∧ p.tail[tailIndex p f]? = some b) := by
  unfold stepByte
  rcases windowAt_cases p f.cursor.toNat f.len with
    ⟨h, hc⟩ | ⟨h, hc⟩ | ⟨h, hc⟩ | ⟨h, hc⟩ | ⟨h, hc⟩ | ⟨h, hc⟩ | ⟨h, hc⟩ | ⟨h, hc⟩ <;>
    simp only [frameWindow, h]
  · unfold headerByte
    split_ifs with hb
    · exact .inr (.inl ⟨rfl, hc, hb⟩)
    · exact .inl ⟨rfl, .inl hc⟩
  · exact .inr (.inr (.inl ⟨trivial, hc⟩))
  · exact .inr (.inr (.inr (.inl ⟨trivial, hc⟩)))
  · exact .inr (.inr (.inr (.inr (.inl ⟨trivial, hc⟩))))
  · exact .inr (.inr (.inr (.inr (.inr (.inl ⟨trivial, hc⟩)))))
  · exact .inr (.inr (.inr (.inr (.inr (.inr (.inl ⟨trivial, hc⟩))))))
  · exact .inr (.inr (.inr (.inr (.inr (.inr (.inr (.inl ⟨trivial, hc⟩)))))))
  · unfold tailByte
    split_ifs with hb ht
    · exact .inl ⟨rfl, .inr hc⟩
    · have hT : p.T = p.tail.length := rfl
      have hlt := (List.getElem?_eq_some_iff.1 (not_not.1 hb)).1
      exact .inr (.inr (.inr (.inr (.inr (.inr (.inr (.inr (.inr ⟨rfl, hc, by omega, not_not.1 hb⟩))))))))
    · have hT : p.T = p.tail.length := rfl
      have hlt := (List.getElem?_eq_some_iff.1 (not_not.1 hb)).1
      exact .inr (.inr (.inr (.inr (.inr (.inr (.inr (.inr (.inl ⟨rfl, hc, by omega, not_not.1 hb⟩))))))))

@[simp] theorem batchAfter_n (bt : Batch) (e : ByteEvent) : (batchAfter bt e).n = bt.n := rfl
@[simp] theorem batchAfter_k (bt : Batch) (e : ByteEvent) : (batchAfter bt e).k = bt.k + 1 := rfl
@[simp] theorem batchAfter_done (bt : Batch) (e : ByteEvent) :
    (batchAfter bt e).done = (bt.done || decide (e = .frameDone)) := rfl
@[simp] theorem batchAfter_rst (bt : Batch) (e : ByteEvent) :
    (batchAfter bt e).rst = (bt.rst || decide (e = .mismatch)) := rfl

theorem batchRunning_iff (bt : Batch) : batchRunning bt = true ↔ bt.k < bt.n.toNat ∧ bt.done = false := by
  simp [batchRunning]

section loop
variable {p : Params}

@[simp] theorem batchLoop_nil (f : Frame) (bt : Batch) : batchLoop p [] f bt = ⟨[], f, bt⟩ := rfl

theorem batchLoop_cons_running {bt : Batch} (h : batchRunning bt = true) (b : Byte) (q : List Byte) (f : Frame) :
    batchLoop p (b :: q) f bt =
      batchLoop p q (stepByte p f b).frame (batchAfter bt (stepByte p f b).event) := by
  simp [batchLoop, h]

theorem batchLoop_stopped {bt : Batch} (h : batchRunning bt = false) (q : List Byte) (f : Frame) :
    batchLoop p q f bt = ⟨q, f, bt⟩ := by
  cases q <;> simp [batchLoop, h]

/-- What one byte keeps, and one more byte of a batch, the loop keeps. -/
theorem batchLoop_keeps {P : Frame → Batch → Prop}
    (hstep : ∀ f bt b, P f bt → batchRunning bt = true →
      P (stepByte p f b).frame (batchAfter bt (stepByte p f b).event)) :
    ∀ (q : List Byte) (f : Frame) (bt : Batch), P f bt →
      P (batchLoop p q f bt).frame (batchLoop p q f bt).batch := by
  intro q
  induction q with
  | nil => exact fun f bt h => h
  | cons b q ih =>
    intro f bt h
    cases hr : batchRunning bt with
    | false => rw [batchLoop_stopped hr]; exact h
    | true => rw [batchLoop_cons_running hr]; exact ih _ _ (hstep f bt b h hr)

@[simp] theorem batchLoop_n (q : List Byte) (f : Frame) (bt : Batch) : (batchLoop p q f bt).batch.n = bt.n :=
  batchLoop_keeps (P := fun _ bt' => bt'.n = bt.n) (fun _ _ _ h _ => h) q f bt rfl

theorem batchLoop_k_le (q : List Byte) (f : Frame) (bt : Batch) (h : bt.k ≤ bt.n.toNat) :
    (batchLoop p q f bt).batch.k ≤ bt.n.toNat := by
  refine (batchLoop_keeps (P := fun _ bt' => bt'.n = bt.n ∧ bt'.k ≤ bt.n.toNat) ?_ q f bt ⟨rfl, h⟩).2
  rintro _ bt' _ ⟨hn, _⟩ hr
  have := ((batchRunning_iff bt').1 hr).1
  exact ⟨hn, by rw [batchAfter_k, ← hn]; omega⟩

/-- The bytes taken are the first ones of `Q`, one for each count of `k` (20_memory.md R50). -/
theorem batchLoop_takes (q : List Byte) : ∀ (f : Frame) (bt : Batch), ∃ j ≤ q.length,
    (batchLoop p q f bt).batch.k = bt.k + j ∧ (batchLoop p q f bt).q = q.drop j := by
  induction q with
  | nil => exact fun f bt => ⟨0, le_refl _, rfl, rfl⟩
  | cons b q ih =>
    intro f bt
    cases hr : batchRunning bt with
    | false => rw [batchLoop_stopped hr]; exact ⟨0, Nat.zero_le _, rfl, rfl⟩
    | true =>
      rw [batchLoop_cons_running hr]
      obtain ⟨j, hj, hk, hq⟩ := ih (stepByte p f b).frame (batchAfter bt (stepByte p f b).event)
      exact ⟨j + 1, Nat.succ_le_succ hj, by rw [hk, batchAfter_k]; omega, by rw [hq]; rfl⟩

/-- The loop leaves bytes only where its condition fails (41_frame_parser.md R97). -/
theorem batchLoop_q_of_running (q : List Byte) : ∀ (f : Frame) (bt : Batch),
    batchRunning (batchLoop p q f bt).batch = true → (batchLoop p q f bt).q = [] := by
  induction q with
  | nil => exact fun f bt _ => rfl
  | cons b q ih =>
    intro f bt h
    cases hr : batchRunning bt with
    | false => rw [batchLoop_stopped hr] at h; simp [hr] at h
    | true => rw [batchLoop_cons_running hr] at h ⊢; exact ih _ _ h

/-- The loop over a queue in two parts: it goes on into the second only if it is still running after the first. -/
theorem batchLoop_append (xs ys : List Byte) : ∀ (f : Frame) (bt : Batch),
    batchLoop p (xs ++ ys) f bt =
      if batchRunning (batchLoop p xs f bt).batch = true then
        batchLoop p ys (batchLoop p xs f bt).frame (batchLoop p xs f bt).batch
      else ⟨(batchLoop p xs f bt).q ++ ys, (batchLoop p xs f bt).frame, (batchLoop p xs f bt).batch⟩ := by
  induction xs with
  | nil =>
    intro f bt
    cases hr : batchRunning bt with
    | false => simp [batchLoop_stopped hr, hr]
    | true => simp [hr]
  | cons b xs ih =>
    intro f bt
    cases hr : batchRunning bt with
    | false => simp [batchLoop_stopped hr, hr]
    | true => rw [List.cons_append, batchLoop_cons_running hr, batchLoop_cons_running hr]; exact ih _ _

/-- A larger count lets the loop go on from where the smaller one left it. -/
theorem batchLoop_extend {n n' : Half} (hn : n.toNat ≤ n'.toNat) (q : List Byte) : ∀ (f : Frame) (k : Nat) (d r : Bool),
    batchLoop p q f ⟨n', k, d, r⟩ =
      batchLoop p (batchLoop p q f ⟨n, k, d, r⟩).q (batchLoop p q f ⟨n, k, d, r⟩).frame
        { (batchLoop p q f ⟨n, k, d, r⟩).batch with n := n' } := by
  induction q with
  | nil => exact fun f k d r => rfl
  | cons b q ih =>
    intro f k d r
    cases hr : batchRunning ⟨n, k, d, r⟩ with
    | false => rw [batchLoop_stopped hr]
    | true =>
      have hr' : batchRunning ⟨n', k, d, r⟩ = true := by
        rw [batchRunning_iff] at hr ⊢
        exact ⟨show k < n'.toNat from lt_of_lt_of_le hr.1 hn, hr.2⟩
      rw [batchLoop_cons_running hr, batchLoop_cons_running hr']
      exact ih _ _ _ _

/-- Only how much is left to take matters: batches with as many bytes to go take the same bytes to the same frame, and differ
by the bytes and the mismatches they had before. -/
theorem batchLoop_shift (q : List Byte) : ∀ (f : Frame) (bt bt' : Batch), bt.done = bt'.done →
    bt.n.toNat - bt.k = bt'.n.toNat - bt'.k →
    (batchLoop p q f bt).q = (batchLoop p q f bt').q ∧
    (batchLoop p q f bt).frame = (batchLoop p q f bt').frame ∧
    (batchLoop p q f bt).batch.done = (batchLoop p q f bt').batch.done ∧
    batchRunning (batchLoop p q f bt).batch = batchRunning (batchLoop p q f bt').batch ∧
    ∃ j x, (batchLoop p q f bt).batch.k = bt.k + j ∧ (batchLoop p q f bt').batch.k = bt'.k + j ∧
      (batchLoop p q f bt).batch.rst = (bt.rst || x) ∧ (batchLoop p q f bt').batch.rst = (bt'.rst || x) := by
  have running : ∀ bt bt' : Batch, bt.done = bt'.done → bt.n.toNat - bt.k = bt'.n.toNat - bt'.k →
      batchRunning bt = batchRunning bt' := by
    intro bt bt' hd hk
    rw [Bool.eq_iff_iff, batchRunning_iff, batchRunning_iff, hd]
    exact and_congr_left fun _ => by omega
  induction q with
  | nil => exact fun f bt bt' hd hk => ⟨rfl, rfl, hd, running bt bt' hd hk, 0, false, by simp⟩
  | cons b q ih =>
    intro f bt bt' hd hk
    have hrr := running bt bt' hd hk
    cases hr : batchRunning bt with
    | false =>
      rw [hr] at hrr
      rw [batchLoop_stopped hr, batchLoop_stopped hrr.symm]
      exact ⟨rfl, rfl, hd, hr.trans hrr, 0, false, by simp⟩
    | true =>
      rw [hr] at hrr
      rw [batchLoop_cons_running hr, batchLoop_cons_running hrr.symm]
      obtain ⟨h1, h2, h3, h4, j, x, h5, h6, h7, h8⟩ :=
        ih (stepByte p f b).frame (batchAfter bt (stepByte p f b).event)
          (batchAfter bt' (stepByte p f b).event) (by simp [hd]) (by simp only [batchAfter_n, batchAfter_k]; omega)
      refine ⟨h1, h2, h3, h4, j + 1, decide ((stepByte p f b).event = .mismatch) || x, ?_, ?_, ?_, ?_⟩
      · rw [h5, batchAfter_k]; omega
      · rw [h6, batchAfter_k]; omega
      · rw [h7, batchAfter_rst, Bool.or_assoc]
      · rw [h8, batchAfter_rst, Bool.or_assoc]

end loop

/-- Bytes a batch takes one after another with no mismatch and no completed frame lead from one frame to another. -/
inductive Accepts (p : Params) : Frame → List Byte → Frame → Prop where
  | nil (f : Frame) : Accepts p f [] f
  | cons {f g : Frame} {b : Byte} {xs : List Byte} (h : (stepByte p f b).event = .accepted)
      (ht : Accepts p (stepByte p f b).frame xs g) : Accepts p f (b :: xs) g

theorem Accepts.append {p : Params} {f g h : Frame} {xs ys : List Byte} (h1 : Accepts p f xs g)
    (h2 : Accepts p g ys h) : Accepts p f (xs ++ ys) h := by
  induction h1 with
  | nil => exact h2
  | cons ha _ ih => exact .cons ha (ih h2)

/-- Accepted bytes only advance the count. -/
theorem Accepts.batchLoop {p : Params} {f g : Frame} {xs : List Byte} (h : Accepts p f xs g) (ys : List Byte) :
    ∀ {bt : Batch}, bt.done = false → bt.k + xs.length ≤ bt.n.toNat →
      batchLoop p (xs ++ ys) f bt = batchLoop p ys g { bt with k := bt.k + xs.length } := by
  induction h with
  | nil => intro bt _ _; rfl
  | cons ha _ ih =>
    intro bt hd hk
    have hr : batchRunning bt = true := by
      rw [batchRunning_iff]; simp only [List.length_cons] at hk; exact ⟨by omega, hd⟩
    rw [List.cons_append, batchLoop_cons_running hr, ha,
      ih (by simp [hd]) (by simp only [List.length_cons] at hk; simp only [batchAfter_k, batchAfter_n]; omega)]
    congr 1
    simp only [batchAfter, List.length_cons, hd]
    congr 1 <;> first | omega | simp

section runBatch
variable (bt : Batch) (s : State)

@[simp] theorem runBatch_params : (runBatch bt s).params = s.params := by simp only [runBatch]; split <;> rfl
@[simp] theorem runBatch_s1 : (runBatch bt s).s1 = s.s1 := by simp only [runBatch]; split <;> rfl
@[simp] theorem runBatch_s2 : (runBatch bt s).s2 = s.s2 := by simp only [runBatch]; split <;> rfl
@[simp] theorem runBatch_err : (runBatch bt s).err = s.err := by simp only [runBatch]; split <;> rfl
@[simp] theorem runBatch_rstAsserted : (runBatch bt s).rstAsserted = s.rstAsserted := by
  simp only [runBatch]; split <;> rfl
@[simp] theorem runBatch_pending : (runBatch bt s).pending = s.pending := by simp only [runBatch]; split <;> rfl
@[simp] theorem runBatch_replies : (runBatch bt s).replies = s.replies := by simp only [runBatch]; split <;> rfl
@[simp] theorem runBatch_resets : (runBatch bt s).resets = s.resets := by simp only [runBatch]; split <;> rfl

@[simp] theorem runBatch_frame : (runBatch bt s).frame = (batchLoop s.params s.q s.frame bt).frame := by
  simp only [runBatch]; split <;> rfl

@[simp] theorem runBatch_q : (runBatch bt s).q = (batchLoop s.params s.q s.frame bt).q := by
  simp only [runBatch]; split <;> rfl

/-- A batch that ran either waits, with nothing written but the frame registers, or has ended, with `BCNT` and `STATUS`
written (41_frame_parser.md R81, R93 to R95). -/
theorem runBatch_cases :
    (batchRunning (batchLoop s.params s.q s.frame bt).batch = true ∧ (runBatch bt s).q = [] ∧
      (runBatch bt s).batch = some (batchLoop s.params s.q s.frame bt).batch ∧
      (runBatch bt s).status = s.status ∧ (runBatch bt s).bcnt = s.bcnt) ∨
    (batchRunning (batchLoop s.params s.q s.frame bt).batch = false ∧ (runBatch bt s).batch = none ∧
      (runBatch bt s).status = endStatus (batchLoop s.params s.q s.frame bt).batch (runBatch bt s).frame ∧
      (runBatch bt s).bcnt = BitVec.ofNat 16 (batchLoop s.params s.q s.frame bt).batch.k) := by
  cases h : batchRunning (batchLoop s.params s.q s.frame bt).batch with
  | true =>
    exact .inl ⟨rfl, by rw [runBatch_q]; exact batchLoop_q_of_running _ _ _ h, by simp [runBatch, h],
      by simp [runBatch, h], by simp [runBatch, h]⟩
  | false => exact .inr ⟨rfl, by simp [runBatch, h], by simp [runBatch, h], by simp [runBatch, h]⟩

end runBatch

/-- A batch of one byte that is there: one byte step, then the end-of-batch writes. -/
theorem runBatch_one {s : State} {b : Byte} {q : List Byte} (hq : s.q = b :: q) :
    runBatch ⟨1, 0, false, false⟩ s =
      { s with
        frame := (stepByte s.params s.frame b).frame
        q := q, batch := none, bcnt := 1
        status := endStatus (batchAfter ⟨1, 0, false, false⟩ (stepByte s.params s.frame b).event)
          (stepByte s.params s.frame b).frame } := by
  have h1 : batchRunning ⟨1, 0, false, false⟩ = true := by decide
  have h2 : batchRunning (batchAfter ⟨1, 0, false, false⟩ (stepByte s.params s.frame b).event) = false := by
    simp [batchRunning]
  simp only [runBatch, hq, batchLoop_cons_running h1, batchLoop_stopped h2, h2, endBatch]
  rfl

/-- A batch of no bytes: only the end-of-batch writes. -/
theorem runBatch_zero (s : State) :
    runBatch ⟨0, 0, false, false⟩ s = { s with batch := none, bcnt := 0, status := statusUnfinished } := by
  have h : batchRunning ⟨0, 0, false, false⟩ = false := by decide
  simp only [runBatch, batchLoop_stopped h, h, endBatch]
  rfl

/-- The codes a batch that completed a frame ends with. -/
theorem endStatus_completed (bt : Batch) (f : Frame) :
    endStatus bt f = statusVerified ∨ endStatus bt f = statusChecksumError ↔ bt.done = true := by
  unfold endStatus
  split_ifs <;> simp_all [statusVerified, statusChecksumError, statusReset, statusUnfinished]

theorem statusLegal_endStatus (bt : Batch) (f : Frame) : statusLegal (endStatus bt f) = true := by
  unfold endStatus
  split_ifs <;> rfl

end Sys2Proof.Machine
end

