-- ==== Sys2Proof/Laws/PerInstr.lean ====
section
/-! SUPPORT. Facts about every instruction as syntax, one lemma per constructor (LAWS.json). -/

namespace Sys2Proof.Laws

/-- The word that encodes an instruction matches that instruction's own row of the opcode map (30_encoding.md R58). -/
def EncodedInItsRow.Statement (i : Instr) : Prop := (rowOf i).hits (encode i) = true

theorem EncodedInItsRow.csClr : EncodedInItsRow.Statement .csClr := rfl

theorem EncodedInItsRow.csByte (b : Byte) : EncodedInItsRow.Statement (.csByte b) := by
  simp only [EncodedInItsRow.Statement, rowOf, Row.hits, rowCsByte, encode, beq_iff_eq]
  ext i hi
  simp only [BitVec.getElem_and, BitVec.getElem_or, BitVec.getElem_setWidth]
  by_cases h : i < 8
  · interval_cases i <;> simp
  · rw [BitVec.getLsbD_of_ge b i (by omega)]
    interval_cases i <;> simp_all

theorem EncodedInItsRow.fpBatch (n : Half) : EncodedInItsRow.Statement (.fpBatch n) := by
  simp only [EncodedInItsRow.Statement, rowOf, Row.hits, rowFpBatch, encode, beq_iff_eq]
  ext i hi
  simp only [BitVec.getElem_and, BitVec.getElem_or, BitVec.getElem_setWidth]
  by_cases h : i < 16
  · interval_cases i <;> simp
  · rw [BitVec.getLsbD_of_ge n i (by omega)]
    interval_cases i <;> simp_all

end Sys2Proof.Laws
end

