-- ==== Sys2Proof/Laws/Registers.lean ====
section
/-! SUPPORT. What an index names (20_memory.md R38, R39), and the two packed registers as numbers (10_state.md R26, R29). -/

namespace Sys2Proof.Machine

/-- Above the named registers an index is a payload entry, inside the window, or unmapped (20_memory.md R39). -/
theorem regAt_window {p : Params} {idx : Word} (h : 0xE < idx.toNat) :
    regAt p idx =
      if 0x10000 ≤ idx.toNat ∧ idx.toNat < 0x10000 + p.C then some (.pb (idx.toNat - 0x10000)) else none := by
  obtain ⟨m, hm⟩ := Nat.exists_eq_add_of_lt h
  unfold regAt
  rw [hm]
  split <;> first | contradiction | rfl | (exfalso; omega)

/-- The index of a payload entry (20_memory.md R39). -/
theorem regAt_pb {p : Params} (hC : p.C ≤ 65536) {i : Nat} (hi : i < p.C) :
    regAt p (BitVec.ofNat 32 (0x10000 + i)) = some (.pb i) := by
  have h : (BitVec.ofNat 32 (0x10000 + i)).toNat = 0x10000 + i := by
    rw [BitVec.toNat_ofNat]; omega
  rw [regAt_window (by omega), h, if_pos ⟨by omega, by omega⟩, Nat.add_sub_cancel_left]

theorem frameChecksum_read (f : Frame) :
    (frameChecksum f).setWidth 32 = BitVec.ofNat 32 (256 * f.fs1.toNat + f.fs2.toNat) := by
  apply BitVec.eq_of_toNat_eq; simp [frameChecksum, packBytes_toNat]

theorem csOut_read (s : State) :
    (csOut s).setWidth 32 = BitVec.ofNat 32 (256 * s.s1.toNat + s.s2.toNat) := by
  apply BitVec.eq_of_toNat_eq; simp [csOut, packBytes_toNat]

end Sys2Proof.Machine
end

