-- ==== Sys2Proof/Laws/Step.lean ====
section
/-! SUPPORT. What a transaction and a step can do, said once. -/

namespace Sys2Proof.Machine

/-- What a command does: it always completes with a next state, or starts a wait. -/
theorem exec_cases {i : Instr} {s t : State} (h : exec i s = .next t) :
    (i = .csClr ∧ t = { s with s1 := 0, s2 := 0 }) ∨
    (∃ b, i = .csByte b ∧ t = { s with s1 := (fold (s.s1, s.s2) b).1, s2 := (fold (s.s1, s.s2) b).2 }) ∨
    (∃ n, i = .fpBatch n ∧ t = runBatch ⟨n, 0, false, false⟩ s) := by
  cases i with
  | csClr => exact .inl ⟨rfl, by simpa [exec, execCsClr] using h.symm⟩
  | csByte b => exact .inr (.inl ⟨b, rfl, by simpa [exec, execCsByte] using h.symm⟩)
  | fpBatch n => exact .inr (.inr ⟨n, rfl, by simpa [exec, execFpBatch] using h.symm⟩)

/-- A register read that answers changes nothing, or sets BADRD (20_memory.md R40, R42). -/
theorem regRead_cases {idx v : Word} {s t : State} (h : regRead idx s = .next (v, t)) :
    (t = s ∧ (regAt s.params idx).isSome = true) ∨
    (t = raiseCmdError .badrd s ∧ v = 0 ∧ regAt s.params idx = none) := by
  unfold regRead at h
  cases hr : regAt s.params idx with
  | none => simp_all
  | some r => cases hv : readReg r s <;> simp_all

/-- What one input does, when it takes effect. -/
theorem perform_cases {x : Input} {s t : State} (h : perform x s = .next t) :
    (∃ v i, x = .regWrite 0 v ∧ decode v = .ok i ∧ exec i s = .next t) ∨
    (∃ v e, x = .regWrite 0 v ∧ decode v = .error e ∧ t = raiseCmdError .illcmd s) ∨
    (∃ idx v, x = .regWrite idx v ∧ idx ≠ 0 ∧ t = raiseCmdError .badwr s) ∨
    (∃ idx v u, x = .regRead idx ∧ regRead idx s = .next (v, u) ∧ t = reply v u) ∨
    (∃ b, x = .byte b ∧ t = appendByte b s) ∨
    (x = .rst true ∧ t = blockReset s) ∨
    (x = .rst false ∧ t = releaseReset s) := by
  cases x with
  | regWrite idx v =>
    by_cases hi : idx = 0
    · subst hi
      cases hd : decode v with
      | ok i => exact .inl ⟨v, i, rfl, hd, by simpa [perform, regWrite, execute, hd] using h⟩
      | error e =>
        exact .inr (.inl ⟨v, e, rfl, hd, by simpa [perform, regWrite, execute, hd] using h.symm⟩)
    · exact .inr (.inr (.inl ⟨idx, v, rfl, hi, by
        simp only [perform, regWrite, if_neg hi, Host.Outcome.next.injEq] at h
        exact h.symm⟩))
  | regRead idx =>
    cases hr : regRead idx s with
    | next r =>
      exact .inr (.inr (.inr (.inl ⟨idx, r.1, r.2, rfl, hr, by simpa [perform, hr] using h.symm⟩)))
    | fault e => simp [perform, hr] at h
    | refused e => simp [perform, hr] at h
  | byte b => exact .inr (.inr (.inr (.inr (.inl ⟨b, rfl, by simpa [perform] using h.symm⟩))))
  | rst a =>
    cases a with
    | true => exact .inr (.inr (.inr (.inr (.inr (.inl ⟨rfl, by simpa [perform] using h.symm⟩)))))
    | false => exact .inr (.inr (.inr (.inr (.inr (.inr ⟨rfl, by simpa [perform] using h.symm⟩)))))

/-- A waiting batch with a byte in `Q` goes on (41_frame_parser.md R93). -/
theorem step_resume {s : State} {bt : Batch} (hb : s.batch = some bt) (hq : s.q ≠ []) :
    step s = .next (runBatch bt s) := by
  cases h : s.q with
  | nil => exact absurd h hq
  | cons b q => simp [step, hb, h]

/-- With no batch that can go on, a step is the next input's effect. -/
theorem step_input {s : State} {x : Input} {rest : List Input} (hw : s.batch = none ∨ s.q = [])
    (hn : nextInput s = some (x, rest)) : step s = perform x { s with pending := rest } := by
  unfold step
  rcases hw with h | h <;> simp [h, hn]

/-- With no batch that can go on and no input, a step changes nothing. -/
theorem step_idle {s : State} (hw : s.batch = none ∨ s.q = []) (hn : nextInput s = none) :
    step s = .next s := by
  unfold step
  rcases hw with h | h <;> simp [h, hn]

/-- What a step can be: a waiting batch going on, an input's effect, or nothing. -/
theorem step_cases (s : State) :
    (∃ bt, s.batch = some bt ∧ s.q ≠ [] ∧ step s = .next (runBatch bt s)) ∨
    ((s.batch = none ∨ s.q = []) ∧ ∃ x rest, nextInput s = some (x, rest) ∧
      step s = perform x { s with pending := rest }) ∨
    ((s.batch = none ∨ s.q = []) ∧ nextInput s = none ∧ step s = .next s) := by
  by_cases hw : s.batch = none ∨ s.q = []
  · cases hn : nextInput s with
    | none => exact .inr (.inr ⟨hw, rfl, step_idle hw hn⟩)
    | some r => exact .inr (.inl ⟨hw, r.1, r.2, rfl, step_input hw hn⟩)
  · obtain ⟨hb, hq⟩ := not_or.1 hw
    obtain ⟨bt, hb⟩ := Option.ne_none_iff_exists'.1 hb
    exact .inl ⟨bt, hb, hq, step_resume hb hq⟩

section nextInput
variable {s : State}

/-- While no transaction may start, the next input is none. -/
theorem takeNonTransaction_spec : ∀ {xs : List Input} {x : Input} {ys : List Input},
    takeNonTransaction xs = some (x, ys) → isTransaction x = false ∧
      ys.filter isTransaction = xs.filter isTransaction ∧ ∃ us vs, xs = us ++ x :: vs ∧ ys = us ++ vs := by
  intro xs
  induction xs with
  | nil => intro x ys h; simp [takeNonTransaction] at h
  | cons z zs ih =>
    intro x ys h
    unfold takeNonTransaction at h
    split_ifs at h with hz
    · cases hr : takeNonTransaction zs with
      | none => simp [hr] at h
      | some r =>
        obtain ⟨h1, h2, us, vs, h3, h4⟩ := ih (x := r.1) (ys := r.2) hr
        simp only [hr, Option.some.injEq, Prod.mk.injEq] at h
        obtain ⟨rfl, rfl⟩ := h
        exact ⟨h1, by simp [hz, h2], z :: us, vs, by simp [h3], by simp [h4]⟩
    · simp only [Option.some.injEq, Prod.mk.injEq] at h
      obtain ⟨rfl, rfl⟩ := h
      exact ⟨by simpa using hz, by simp [hz], [], zs, rfl, rfl⟩

theorem nextInput_blocked (h : portBlocked s = true) : nextInput s = takeNonTransaction s.pending := by
  simp [nextInput, h]

theorem nextInput_open (h : portBlocked s = false) {x : Input} {xs : List Input} (hp : s.pending = x :: xs) :
    nextInput s = some (x, xs) := by
  simp [nextInput, h, hp]

/-- With the port open, a step is the oldest input's effect (20_memory.md R41, R42). -/
theorem step_open {x : Input} {rest : List Input} (hi : idle s) (hp : s.pending = x :: rest) :
    step s = perform x { s with pending := rest } :=
  step_input (.inl hi.1) (nextInput_open (by simp [portBlocked, hi.1, hi.2]) hp)

/-- With no transaction able to start, a step is a byte's arrival, a change of RST, or nothing (20_memory.md R49). -/
theorem step_blocked_cases {t : State} (hblk : portBlocked s = true) (hw : inputTurn s) (h : step s = .next t) :
    (∃ b rest, nextInput s = some (.byte b, rest) ∧ t = appendByte b { s with pending := rest } ∧
      rest.filter isTransaction = s.pending.filter isTransaction) ∨
    (∃ rest, nextInput s = some (.rst true, rest) ∧ t = blockReset { s with pending := rest } ∧
      rest.filter isTransaction = s.pending.filter isTransaction) ∨
    (∃ rest, nextInput s = some (.rst false, rest) ∧ t = releaseReset { s with pending := rest } ∧
      rest.filter isTransaction = s.pending.filter isTransaction) ∨
    (nextInput s = none ∧ t = s) := by
  cases hn : nextInput s with
  | none => rw [step_idle hw hn] at h; cases h; simp
  | some r =>
    obtain ⟨x, rest⟩ := r
    rw [step_input hw hn] at h
    rw [nextInput_blocked hblk] at hn
    obtain ⟨hx, hf, _⟩ := takeNonTransaction_spec hn
    cases x with
    | regWrite => simp [isTransaction] at hx
    | regRead => simp [isTransaction] at hx
    | byte b =>
      simp only [perform, Host.Outcome.next.injEq] at h
      exact .inl ⟨b, rest, rfl, h.symm, hf⟩
    | rst a =>
      cases a <;> simp only [perform, Host.Outcome.next.injEq] at h
      · exact .inr (.inr (.inl ⟨rest, rfl, h.symm, hf⟩))
      · exact .inr (.inl ⟨rest, rfl, h.symm, hf⟩)

end nextInput

/-- A run's first step. -/
theorem core_run_next {k : Nat} {s t : State} (h : step s = .next t) :
    Host.Core.run Sys2Proof.core (k + 1) s = Host.Core.run Sys2Proof.core k t := by
  have h' : Sys2Proof.core.step s = .next t := h
  simp only [Host.Core.run, h']

/-- A run that answers a next state took a first step that did. -/
theorem core_run_succ {k : Nat} {s t : State} (h : Host.Core.run Sys2Proof.core (k + 1) s = .next t) :
    ∃ u, step s = .next u ∧ Host.Core.run Sys2Proof.core k u = .next t := by
  cases hs : step s with
  | next u => exact ⟨u, rfl, by rw [← core_run_next hs, h]⟩
  | fault e =>
    have hs' : Sys2Proof.core.step s = .fault e := hs
    simp only [Host.Core.run, hs'] at h
    cases h
  | refused e =>
    have hs' : Sys2Proof.core.step s = .refused e := hs
    simp only [Host.Core.run, hs'] at h
    cases h

end Sys2Proof.Machine
end

