-- ==== Sys2Proof/Machine/AsmText.lean ====
section
/-! DEFINITION. The text of the assembler syntax (30_encoding.md R62, R63): one transaction a line, `;` starts a comment, an
immediate is decimal or `0x` hexadecimal, register names may stand for their index in `RD` and `WR`. -/

namespace Sys2Proof.Machine

/-- Blanks may stand around every word (log 19). -/
def isBlank (c : Char) : Bool := c == ' ' || c == '\t'

/-- The text without blanks at its ends. -/
def trimBlanks (cs : List Char) : List Char :=
  ((cs.dropWhile isBlank).reverse.dropWhile isBlank).reverse

/-- The digits R62 allows: the first ten for a decimal immediate, all sixteen for a hexadecimal one, in either case. -/
def digitChars : List Char := "0123456789ABCDEF".toList

/-- The number that a text of digits writes in a base, at least one digit. An underscore after a digit only separates, as
the spec's own lines write `0x0301_0003` (95_test_vectors.md 4; log 19). -/
def readNumber (base : Nat) (cs : List Char) : Option Nat :=
  if cs.head?.all (fun c => c == '_') then none
  else
    let places := (cs.filter (fun c => c != '_')).map (fun c => (digitChars.take base).idxOf? c.toUpper)
    if places.all Option.isSome then some (Nat.ofDigits base places.reduceOption.reverse) else none

/-- An immediate: decimal, or hexadecimal after `0x` (R62). -/
def readImm : List Char → Option Nat
  | '0' :: 'x' :: cs => readNumber 16 cs
  | cs => readNumber 10 cs

/-- The names of the register map, but for the payload entries (20_memory.md R38). -/
def regNames : List (String × Reg) :=
  [("CMDW", .cmdw), ("STATUS", .status), ("STATE", .state), ("CURSOR", .cursor), ("HMATCH", .hmatch),
   ("CMD", .cmd), ("LEN", .len), ("EXPCS", .expcs), ("FCS", .fcs), ("BCNT", .bcnt), ("CSOUT", .csout),
   ("ERR", .err), ("CAP", .cap), ("HLEN", .hlen), ("TLEN", .tlen)]

/-- The register a name stands for; `PB[i]` with an immediate `i` (R62). -/
def readReg? : List Char → Option Reg
  | 'P' :: 'B' :: '[' :: cs =>
    match cs.reverse with
    | ']' :: ds => (readImm ds.reverse).map Reg.pb
    | _ => none
  | cs => (regNames.find? (fun r => r.1.toList == cs)).map Prod.snd

/-- The index operand of `RD` and `WR`: an immediate or a register name (R62). -/
def readIndex (cs : List Char) : Option Nat :=
  match readImm cs with
  | some n => some n
  | none => (readReg? cs).map regIndex

/-- The pieces between separators. -/
def pieces (sep : Char) : List Char → List (List Char)
  | [] => [[]]
  | c :: cs =>
    if c == sep then [] :: pieces sep cs
    else
      match pieces sep cs with
      | p :: ps => (c :: p) :: ps
      | [] => [[c]]

/-- All the immediates of a comma-separated list; an empty text is no operand. -/
def readImms (cs : List Char) : Option (List Nat) :=
  if cs.isEmpty then some []
  else (pieces ',' cs).foldr (fun p ns => match readImm (trimBlanks p), ns with
    | some n, some ns => some (n :: ns)
    | _, _ => none) (some [])

/-- The text before the first `->`. R62 writes the result of a read after it; that text is no operand, and the model does
not look at it (DESIGN CHOICE, log 19). A `-` that no `>` follows stays in the text. -/
def beforeResult : List Char → List Char
  | [] => []
  | '-' :: '>' :: _ => []
  | c :: cs => c :: beforeResult cs

/-- The operands of each mnemonic of R62 and R63. -/
def readOperands (mnemonic operands : List Char) : Option Line :=
  if mnemonic = "CS.CLR".toList then
    if operands.isEmpty then some .csClr else none
  else if mnemonic = "CS.BYTE".toList then (readImm operands).map Line.csByte
  else if mnemonic = "FP.BATCH".toList then (readImm operands).map Line.fpBatch
  else if mnemonic = "RD".toList then
    (readIndex (trimBlanks (beforeResult operands))).map Line.rd
  else if mnemonic = "WR".toList then
    match pieces ',' operands with
    | [i, v] =>
      match readIndex (trimBlanks i), readImm (trimBlanks v) with
      | some idx, some imm32 => some (.wr idx imm32)
      | _, _ => none
    | _ => none
  else if mnemonic = "ENV.PUSH".toList then
    match readImms operands with
    | some (b :: bs) => some (.envPush (b :: bs))
    | _ => none
  else if mnemonic = "CSUM".toList then (readImms operands).map Line.csum
  else none

/-- One line of text: nothing where only blanks and a comment stand, the parsed line, or none for a text that is no line. -/
def readLine (text : List Char) : Option (List Line) :=
  let cs := trimBlanks (text.takeWhile (fun c => c != ';'))
  if cs.isEmpty then some []
  else (readOperands (cs.takeWhile (fun c => !isBlank c)) (trimBlanks (cs.dropWhile (fun c => !isBlank c)))).map
    (fun l => [l])

/-- A text, line by line, assembled: the inputs its lines stand for; none for an assembly error (R62). -/
def assembleText (text : List Char) : Option (List Input) :=
  match (pieces '\n' text).foldr (fun p ls => match readLine p, ls with
      | some l, some ls => some (l ++ ls)
      | _, _ => none) (some []) with
  | some ls => assemble ls
  | none => none

end Sys2Proof.Machine
end

