-- ==== Sys2Proof/Tests/Slice0.lean ====
section
/-! SUPPORT. The model's own tests: what the well-formedness checks refuse; words written out from the opcode map
(30_encoding.md R58, R59); one small step a test, its expected result from 95_test_vectors.md; and, for every statement
with hypotheses, a concrete state and operands that meet them. -/

namespace Sys2Proof.Tests
open Sys2Proof Sys2Proof.Machine

/-! ### States -/

/-- The parameters of most vectors (95_test_vectors.md 1, EX1). -/
def ex1 : Params := ⟨[0xA5, 0x5A, 0xC3], [0x0D, 0x0A], 8⟩

/-- An idle machine: the frame buffer at `f`, the bytes of `q` waiting. -/
def mk (f : Frame) (q : List Byte) (pending : List Input) : State where
  params := ex1
  frame := f
  status := 0
  bcnt := 0
  s1 := 0
  s2 := 0
  err := 0
  q := q
  batch := none
  rstAsserted := false
  pending := pending
  replies := []
  resets := 0

/-- The six payload bytes of frame F1 (95_test_vectors.md 2.2). -/
def f1Payload : List Byte := [0x00, 0xFF, 0x24, 0x30, 0x5B, 0x22]

/-- Frame F1, byte for byte (95_test_vectors.md 2.2). -/
def f1 : List Byte :=
  [0xA5, 0x5A, 0xC3, 0x10, 0x00, 0x06, 0xD1, 0xF9, 0x00, 0xFF, 0x24, 0x30, 0x5B, 0x22, 0x0D, 0x0A]

/-- F1's registers with the cursor at `c`. -/
def f1At (c : Word) : Frame := ⟨c, 0x10, 6, 0xD1F9, 0xD1, 0xF9, []⟩

/-- F1's registers with the whole payload taken: the cursor at the first tail byte. -/
def f1Tail : Frame :=
  { f1At 14 with pb := [(0, 0x00), (1, 0xFF), (2, 0x24), (3, 0x30), (4, 0x5B), (5, 0x22)] }

/-- At frame start. -/
def start (q : List Byte) : State := mk Frame.reset q []

/-- Idle at frame start, with inputs to come. -/
def todo (pending : List Input) : State := mk Frame.reset [] pending

/-- `FP.BATCH 4` waits after two header bytes (95_test_vectors.md P21). -/
def waiting (pending : List Input) : State :=
  { mk { Frame.reset with cursor := 2 } [] pending with batch := some ⟨4, 2, false, false⟩ }

/-- RST is asserted. -/
def held (pending : List Input) : State := { todo pending with rstAsserted := true }

/-- The next state of an outcome; the blank state where there is none. -/
def nextOf : Host.Outcome State Fault Refusal → State
  | .next s => s
  | .fault _ => start []
  | .refused _ => start []

/-- Whether an outcome is a next state. -/
def goesOn : Host.Outcome State Fault Refusal → Bool
  | .next _ => true
  | .fault _ => false
  | .refused _ => false

/-- The state after one command. -/
def after (i : Instr) (s : State) : State := nextOf (exec i s)

/-! ### Well-formedness: each check refuses an ill-formed term -/

theorem test_legal_ex1 : ex1.Legal := by decide
theorem test_illegal_no_header : ¬ Params.Legal { ex1 with hdr := [] } := by decide
theorem test_illegal_no_tail : ¬ Params.Legal { ex1 with tail := [] } := by decide
theorem test_illegal_no_capacity : ¬ Params.Legal { ex1 with cap := 0 } := by decide
theorem test_illegal_capacity_65537 : ¬ Params.Legal { ex1 with cap := 65537 } := by decide

theorem test_illegal_header_256 : ¬ Params.Legal { ex1 with hdr := List.replicate 256 0 } := by
  simp only [Params.Legal, Params.H, List.length_replicate]; omega

theorem test_illegal_tail_256 : ¬ Params.Legal { ex1 with tail := List.replicate 256 0 } := by
  simp only [Params.Legal, Params.T, List.length_replicate]; omega

theorem test_line_byte_256 : (Line.csByte 256).wf = false ∧ (Line.csByte 255).wf = true := by decide
theorem test_line_batch_65536 : (Line.fpBatch 65536).wf = false ∧ (Line.fpBatch 65535).wf = true := by decide
theorem test_line_rd_33_bits : (Line.rd 0x100000000).wf = false := by decide
theorem test_line_wr_index : (Line.wr 0x100000000 0).wf = false := by decide
theorem test_line_wr_value : (Line.wr 0 0x100000000).wf = false := by decide
theorem test_line_push_256 : (Line.envPush [0, 256]).wf = false := by decide
theorem test_line_csum_256 : (Line.csum [256]).wf = false := by decide

/-! ### Decoding: words written out from the opcode map (30_encoding.md R58, R59; 95_test_vectors.md 4) -/

/-- OP 0000_0001, RSV 0, OPD 0. -/
theorem test_word_csClr : decode 0b00000001_00000000_0000000000000000 = .ok .csClr := by rfl

/-- OP 0000_0010, RSV 0, OPD 0x0024. -/
theorem test_word_csByte : decode 0b00000010_00000000_0000000000100100 = .ok (.csByte 0x24) := by rfl

/-- OP 0000_0011, RSV 0, OPD 0x8010: every bit of `OPD` counts. -/
theorem test_word_fpBatch : decode 0b00000011_00000000_1000000000010000 = .ok (.fpBatch 0x8010) := by rfl

/-- The host's reading of the table's bits. -/
theorem test_table_words : decodeTableWord 32 0x01000000 = some .csClr ∧
    decodeTableWord 32 0x020000FF = some (.csByte 0xFF) ∧
    decodeTableWord 32 0x0300FFFF = some (.fpBatch 0xFFFF) ∧
    decodeTableWord 32 0x00000000 = none := by decide

/-- One word of each class of R59. -/
theorem test_illegal_words : decode 0x05000000 = .error .opcode ∧ decode 0x02010041 = .error .reserved ∧
    decode 0x0100FFFF = .error .clrOperand ∧ decode 0x02000100 = .error .byteOperand := by
  exact ⟨rfl, rfl, rfl, rfl⟩

/-- 30_encoding.md R62: a register name stands for its index, and a result and a comment are no operands. -/
theorem test_text_read : assembleText "RD PB[3] -> 0x30 ; payload\nRD STATUS".toList =
    some [.regRead 0x00010003, .regRead 0x00000001] := by decide

/-- Only `->` ends the operand of `RD`: a `-` alone, which R62 does not give, is an assembly error. -/
theorem test_text_minus : assembleText "RD 3-1".toList = none ∧ assembleText "RD STATUS - x".toList = none ∧
    assembleText "RD STATUS->0".toList = some [.regRead 0x00000001] := by decide

/-- 95_test_vectors.md 6, Program C, lines 5 and 6. -/
theorem test_text_write : assembleText "WR STATUS, 0\nWR CMDW, 0x0301_0003".toList =
    some [.regWrite 1 0, .regWrite 0 0x03010003] := by decide

/-- 30_encoding.md R62, R63: decimal and hexadecimal immediates, `CSUM` with none, and an immediate out of range. -/
theorem test_text_commands : assembleText "CSUM\nFP.BATCH 16\nCS.BYTE 0xFF".toList =
      some [.regWrite 0 0x01000000, .regWrite 0 0x03000010, .regWrite 0 0x020000FF] ∧
    assembleText "CS.BYTE 256".toList = none ∧ assembleText "CS.CLR 1".toList = none := by decide

/-! ### One command -/

/-- `CS.CLR` after a fold: `CSOUT = 0`. -/
theorem test_csClr : csOut (after .csClr { start [] with s1 := 0xD1, s2 := 0xF9 }) = 0 := by decide

/-- `CS.CLR` is not a reset of the parser (40_checksum.md R74): `CURSOR` and `Q` stay. -/
theorem test_csClr_frame : (after .csClr (mk (f1At 9) [0x24] [])).frame.cursor = 9 ∧
    (after .csClr (mk (f1At 9) [0x24] [])).q = [0x24] := by decide

/-- 95_test_vectors.md CS8 after CS7: 0xFE then 0x01 wraps the first sum to 0, the second stays 0xFE. -/
theorem test_csByte_wraps : csOut (after (.csByte 0x01) (after (.csByte 0xFE) (start []))) = 0x00FE := by decide

/-- 95_test_vectors.md CS16: 0xFF folds as 0. -/
theorem test_csByte_ff : csOut (after (.csByte 0xFF) { start [] with s1 := 0xD1, s2 := 0xF9 }) = 0xD1CB := by decide

/-- 95_test_vectors.md P1: F1 in one batch is VERIFIED. -/
theorem test_fpBatch_verified : (after (.fpBatch 16) (start f1)).status = 3 ∧
    (after (.fpBatch 16) (start f1)).bcnt = 16 ∧ (after (.fpBatch 16) (start f1)).frame.cmd = 0x10 ∧
    (after (.fpBatch 16) (start f1)).frame.pb.read? 2 = some 0x24 := by decide

/-- 95_test_vectors.md P21: two bytes for a batch of four; it waits, and `BCNT` is not written. -/
theorem test_fpBatch_waits : (after (.fpBatch 4) (start [0xA5, 0x5A])).batch = some ⟨4, 2, false, false⟩ ∧
    (after (.fpBatch 4) (start [0xA5, 0x5A])).bcnt = 0 := by decide

/-! ### Hypotheses met: encoding -/

theorem witness_EncodeOfDecode : decode 0x0200005A = .ok (.csByte 0x5A) := by rfl

theorem witness_ExecuteSelects : (0x01000000 &&& 0xFFFFFFFF : Word) = 0x01000000 ∧
    (0x020000FF &&& 0xFFFFFF00 : Word) = 0x02000000 ∧ (0x0300FFFF &&& 0xFFFF0000 : Word) = 0x03000000 ∧
    ((0x04000000 &&& 0xFFFFFFFF : Word) ≠ 0x01000000 ∧ (0x04000000 &&& 0xFFFFFF00 : Word) ≠ 0x02000000 ∧
      (0x04000000 &&& 0xFFFF0000 : Word) ≠ 0x03000000) := by decide

/-- `ERR[0]` already set, and a step that is no reset. -/
theorem witness_IllegalWords_sticky :
    goesOn (step { todo [.regWrite 0 0x01000000] with err := 5 }) = true ∧ (5 : Word) &&& 1 = 1 := by decide

theorem witness_IllegalWords : (∃ e, decode 0x00FFFFFF = .error e) ∧ (∃ e, decode 0x04000000 = .error e) ∧
    (∃ e, decode 0x03FF0010 = .error e) ∧ (∃ e, decode 0x01000001 = .error e) ∧ ∃ e, decode 0x02000100 = .error e :=
  ⟨⟨_, rfl⟩, ⟨_, rfl⟩, ⟨_, rfl⟩, ⟨_, rfl⟩, ⟨_, rfl⟩⟩

/-- Offsets 0 and 2 (header), 8 and 13 (payload), 14 and 15 (tail) of F1. -/
theorem witness_WireFrame : f1Payload.length ≤ 65535 ∧ 0 < ex1.H ∧ 2 < ex1.H ∧
    (ex1.H + 5 ≤ 8 ∧ 8 ≤ ex1.H + 4 + f1Payload.length) ∧ (ex1.H + 5 ≤ 13 ∧ 13 ≤ ex1.H + 4 + f1Payload.length) ∧
    (ex1.H + 5 + f1Payload.length ≤ 14 ∧ 14 ≤ ex1.H + 4 + f1Payload.length + ex1.T) ∧
    (ex1.H + 5 + f1Payload.length ≤ 15 ∧ 15 ≤ ex1.H + 4 + f1Payload.length + ex1.T) := by decide

theorem witness_AssemblerLines : (255 ≤ 255 ∧ 255 < 256 ∧ 65535 ≤ 65535 ∧ 65535 < 65536) ∧
    (0xFFFFFFFF < 2 ^ 32 ∧ 0 < 2 ^ 32) ∧ (∀ b ∈ [0, 255], b ≤ 255) ∧
    (2 ^ 32 ≤ 0x100000000 ∧ ∃ b ∈ [0, 256], 255 < b) ∧ ex1.C ≤ 65536 ∧
    (∀ i, Reg.pb 7 = .pb i → i < ex1.C) ∧ ∀ i, Reg.csout = .pb i → i < ex1.C :=
  ⟨by decide, by decide, by decide, by decide, by decide, by intro i h; cases h; decide, by intro i h; cases h⟩

/-! ### Hypotheses met: the checksum engine -/

theorem witness_CsClr : opField 0x01000001 = 0x01 ∧ (0x01000001 : Word) ≠ 0x01000000 := by decide

theorem witness_CsByte : opField 0x020001FF = 0x02 ∧ (opdHigh 0x020001FF ≠ 0 ∧ rsvField 0x020001FF = 0) ∧
    opField 0x02010041 = 0x02 ∧ (opdHigh 0x02010041 = 0 ∧ rsvField 0x02010041 ≠ 0) := by decide

/-- F1 but for `EXPCS`, with its last byte to come. -/
def badChecksum (e : Half) : State := mk { f1At 15 with expcs := e } [0x0A] []

/-- 0xFF in the high byte of the checksum field, and in the low byte. -/
theorem witness_NoChecksumByteIsFF : (f1At 15).fs1.toNat ≤ 254 ∧ (f1At 15).fs2.toNat ≤ 254 ∧
    ((after (.fpBatch 1) (badChecksum 0xFF00)).batch = none ∧ (after (.fpBatch 1) (badChecksum 0xFF00)).status = 4 ∧
      (after (.fpBatch 1) (badChecksum 0xFF00)).frame.expcs.extractLsb' 8 8 = (0xFF : Byte)) ∧
    ((after (.fpBatch 1) (badChecksum 0x00FF)).batch = none ∧ (after (.fpBatch 1) (badChecksum 0x00FF)).status = 4 ∧
      (after (.fpBatch 1) (badChecksum 0x00FF)).frame.expcs.extractLsb' 0 8 = (0xFF : Byte)) := by decide

/-- What is to come after `CS.CLR`: a `CS.BYTE`, a byte, and a read. -/
def streamed : List Input := [.regWrite 0 0x02000024, .byte 0xA5, .regRead 0xA]

/-- The run of those four inputs. -/
def streamedRun : Host.Outcome State Fault Refusal :=
  Host.Core.run Sys2Proof.core 4 (todo (.regWrite 0 0x01000000 :: streamed))

theorem witness_Streamed : idle (todo (.regWrite 0 0x01000000 :: streamed)) ∧
    (∀ x ∈ streamed, x ≠ .rst true ∧ x ≠ .regWrite 0 0x01000000) ∧
    streamedRun = .next (nextOf streamedRun) ∧ (nextOf streamedRun).pending = [] :=
  ⟨by decide, by decide, by rfl, by decide⟩

theorem witness_Csum : (∀ b ∈ [0, 255], b ≤ 255) ∧ idle (todo []) := by decide

theorem witness_TwoUnits : exec (.fpBatch 16) (start f1) = .next (after (.fpBatch 16) (start f1)) ∧
    exec .csClr (start f1) = .next (after .csClr (start f1)) ∧
    exec (.csByte 0xFF) (start f1) = .next (after (.csByte 0xFF) (start f1)) := ⟨rfl, rfl, rfl⟩

/-! ### Hypotheses met: one byte -/

/-- The first and the last header byte, matched and not. -/
theorem witness_HeaderByte : ((f1At 0).cursor.toNat < ex1.H ∧ (f1At 2).cursor.toNat < ex1.H) ∧
    (ex1.hdr[(f1At 0).cursor.toNat]? = some 0xA5 ∧ ex1.hdr[(f1At 2).cursor.toNat]? = some 0xC3) ∧
    (ex1.hdr[(f1At 0).cursor.toNat]? ≠ some 0xC3 ∧ ex1.hdr[(f1At 2).cursor.toNat]? ≠ some 0xA5) := by decide

theorem witness_CommandByte : (mk (f1At 3) [0x10] []).q = 0x10 :: [] ∧ (f1At 3).cursor.toNat = ex1.H := by decide

theorem witness_LengthBytes : (mk (f1At 4) [0x00] []).q = 0x00 :: [] ∧ (f1At 4).cursor.toNat = ex1.H + 1 ∧
    (mk (f1At 5) [0x06] []).q = 0x06 :: [] ∧ (f1At 5).cursor.toNat = ex1.H + 2 := by decide

theorem witness_ChecksumBytes : (mk (f1At 6) [0xD1] []).q = 0xD1 :: [] ∧ (f1At 6).cursor.toNat = ex1.H + 3 ∧
    (mk (f1At 7) [0xF9] []).q = 0xF9 :: [] ∧ (f1At 7).cursor.toNat = ex1.H + 4 ∧ ex1.Legal := by decide

/-- The first and the last payload byte of F1. -/
theorem witness_PayloadByte : (ex1.H + 5 ≤ (f1At 8).cursor.toNat ∧
      (f1At 8).cursor.toNat < ex1.H + 5 + (f1At 8).len.toNat) ∧
    (ex1.H + 5 ≤ (f1At 13).cursor.toNat ∧
      (f1At 13).cursor.toNat < ex1.H + 5 + (f1At 13).len.toNat) := by decide

/-- With no payload the byte after the checksum is a tail byte: no clause of the payload statement applies. -/
theorem witness_TailByte_empty_payload : ({ f1At 8 with len := 0 } : Frame).cursor.toNat =
    ex1.H + 5 + ({ f1At 8 with len := 0 } : Frame).len.toNat + 0 := by decide

theorem witness_TailByte : (0 < ex1.T ∧ (f1At 14).cursor.toNat = ex1.H + 5 + (f1At 14).len.toNat + 0) ∧
    (1 < ex1.T ∧ (f1At 15).cursor.toNat = ex1.H + 5 + (f1At 15).len.toNat + 1) ∧
    ex1.tail[0]? ≠ some 0x00 ∧ ex1.tail[1]? ≠ some 0x0D ∧
    (ex1.tail[0]? = some 0x0D ∧ 0 + 1 < ex1.T) ∧ (ex1.tail[1]? = some 0x0A ∧ 1 + 1 = ex1.T ∧
      (1 : Half) ≠ 0 ∧ (65535 : Half) ≠ 0) := by decide

/-! ### Hypotheses met: a batch -/

/-- A state in the middle of F1, its payload taken, meets the invariant. -/
theorem witness_StateInv (q : List Byte) (pending : List Input) : StateInv (mk f1Tail q pending) where
  params_legal := test_legal_ex1
  cursor_in_frame := .inr (by show ex1.H + 5 ≤ f1Tail.cursor.toNat ∧
    f1Tail.cursor.toNat < ex1.H + 5 + f1Tail.len.toNat + ex1.T; decide)
  fs1_le := by show f1Tail.fs1.toNat ≤ 254; decide
  fs2_le := by show f1Tail.fs2.toNat ≤ 254; decide
  s1_le := Nat.zero_le _
  s2_le := Nat.zero_le _
  status_legal := rfl
  err_high_clear := Nat.zero_lt_succ _
  pb_wf := by show f1Tail.pb.wf; decide
  pb_within := by show ∀ c ∈ f1Tail.pb, c.1 < ex1.C; decide
  batch_running := by intro bt h; cases h

/-- In that state `FCS` covers the six payload bytes. -/
theorem witness_frameSumCovers : frameSumCovers ex1 f1Tail := by
  refine ⟨fun _ h => absurd h (by decide), fun _ _ => ⟨f1Payload, by decide, ?_, by decide⟩⟩
  intro i b h
  match i with
  | 0 => exact h
  | 1 => exact h
  | 2 => exact h
  | 3 => exact h
  | 4 => exact h
  | 5 => exact h
  | i + 6 => simp [f1Payload] at h

theorem witness_CursorGrows : StateInv (mk f1Tail [0x0D] []) ∧ (mk f1Tail [0x0D] []).q = 0x0D :: [] ∧
    exec (.fpBatch 1) (mk f1Tail [0x0D] []) = .next (after (.fpBatch 1) (mk f1Tail [0x0D] [])) :=
  ⟨witness_StateInv _ _, rfl, rfl⟩

theorem witness_EmptyBatch : (start f1).batch = none := rfl

theorem witness_BatchWithEnoughBytes : (16 : Half).toNat ≤ (start f1).q.length := by decide

/-- A first byte that goes on, one that mismatches, and one that completes the frame. -/
theorem witness_BatchIsItsFirstByte : (start f1).q = 0xA5 :: f1.tail ∧ (15 : Half).toNat < 65535 ∧
    (after (.fpBatch 1) (start f1)).status = 0 ∧
    (after (.fpBatch 15) (after (.fpBatch 1) (start f1))).batch = none ∧
    (after (.fpBatch 1) (start [0x00, 0xA5])).status = 1 ∧
    (after (.fpBatch 1) (mk (f1At 15) [0x0A] [])).status = 3 := by decide

/-- 95_test_vectors.md P8: F1 split after five bytes; and a split after a mismatch. -/
theorem witness_SplitBatches : (5 : Half).toNat + (11 : Half).toNat ≤ 65535 ∧
    ((after (.fpBatch 5) (start f1)).batch = none ∧ (after (.fpBatch 5) (start f1)).status = 0) ∧
    ((after (.fpBatch 1) (start [0x00])).batch = none ∧ (after (.fpBatch 1) (start [0x00])).status = 1) := by decide

theorem witness_LeftoverBytes : (after (.fpBatch 18) (start (f1 ++ [0xA5, 0x5A]))).batch = none ∧
    (after (.fpBatch 18) (start (f1 ++ [0xA5, 0x5A]))).bcnt.toNat < (18 : Half).toNat := by decide

theorem witness_BatchWaits : (after (.fpBatch 4) (start [0xA5, 0x5A])).batch = some ⟨4, 2, false, false⟩ ∧
    (4 : Half) ≠ 0 ∧ (start []).q = [] := by decide

theorem witness_WaitWithNothing : (waiting [.regRead 1]).batch = some ⟨4, 2, false, false⟩ ∧
    (waiting [.regRead 1]).q = [] ∧ ∀ x ∈ (waiting [.regRead 1]).pending, isTransaction x = true := by decide

theorem witness_WaitingBatchGoesOn :
    exec (.fpBatch 4) (start [0xA5]) = .next (after (.fpBatch 4) (start [0xA5])) ∧
    (after (.fpBatch 4) (start [0xA5])).batch ≠ none ∧ ([0x5A] : List Byte) ≠ [] := ⟨rfl, by decide, by decide⟩

/-- F1 with a byte after it; the clauses over the payload at its ends. -/
theorem witness_WholeFrame : ex1.Legal ∧ (start (f1 ++ [0xA5])).frame.cursor = 0 ∧ f1Payload.length ≤ 65535 ∧
    (start (f1 ++ [0xA5])).q = wireFrame ex1 0x10 0xD1F9 f1Payload ++ [0xA5] ∧
    (wireFrame ex1 0x10 0xD1F9 f1Payload).length ≤ (16 : Half).toNat ∧
    (f1Payload[0]? = some 0x00 ∧ f1Payload.length ≤ 0 + ex1.C) ∧
    (f1Payload[5]? = some 0x22 ∧ f1Payload.length ≤ 5 + ex1.C) ∧
    f1Payload.length ≤ 6 ∧ ex1.C ≤ 8 := by decide

/-- A payload longer than the buffer: its first byte that stays is number 2 (95_test_vectors.md 1, F11). -/
theorem witness_WholeFrame_wraps : ∃ xs : List Byte, xs.length = 10 ∧ ¬ xs.length ≤ 1 + ex1.C ∧
    (xs[2]? = some 0x03 ∧ xs.length ≤ 2 + ex1.C) ∧ ex1.C ≤ 8 ∧ ¬ (ex1.C ≤ 7 ∨ xs.length ≤ 7) :=
  ⟨[1, 2, 3, 4, 5, 6, 7, 8, 9, 10], by decide⟩

/-- 95_test_vectors.md L1-3b, the mismatch at the last header byte; the payload clauses as in `witness_WholeFrame`. -/
theorem witness_FrameAfterAMismatch : ex1.Legal ∧ 2 < ex1.H ∧ ex1.hdr[2]? ≠ some 0x00 ∧
    (start ([0xA5, 0x5A, 0x00] ++ f1)).q =
      ex1.hdr.take 2 ++ 0x00 :: wireFrame ex1 0x10 0xD1F9 f1Payload ++ [] ∧
    2 + 1 + (wireFrame ex1 0x10 0xD1F9 f1Payload).length ≤ (19 : Half).toNat := by decide

theorem witness_CompletedFrame : StateInv (mk f1Tail [0x0D, 0x0A] []) ∧ frameSumCovers ex1 f1Tail ∧
    (after (.fpBatch 2) (mk f1Tail [0x0D, 0x0A] [])).batch = none ∧
    (after (.fpBatch 2) (mk f1Tail [0x0D, 0x0A] [])).status = 3 ∧
    (after (.fpBatch 2) (mk f1Tail [0x0D, 0x0A] [])).frame.len.toNat ≤ ex1.C :=
  ⟨witness_StateInv _ _, witness_frameSumCovers, by decide, by decide, by decide⟩

/-! ### Hypotheses met: register transactions -/

theorem witness_RegisterMap : statusLegal (mk f1Tail [] []).status = true ∧ ex1.C ≤ 65536 ∧
    (5 < ex1.C ∧ f1Tail.pb.read? 5 = some 0x22) ∧ (7 < ex1.C ∧ f1Tail.pb.read? 7 = none) ∧
    (0xE < (0xF : Word).toNat ∧ (0xF : Word).toNat < 0x10000) ∧ (0xFFFF : Word).toNat < 0x10000 ∧
    0x10000 + ex1.C ≤ (0x10008 : Word).toNat := by decide

/-- The cursor's range, at both ends of each of its two parts. -/
theorem witness_StateNames : (f1At 0).cursor = 0 ∧ ex1.Legal ∧ (f1At 0).cursor.toNat ≤ ex1.H + 4 ∧ (f1At 7).cursor.toNat ≤ ex1.H + 4 ∧
    (ex1.H + 5 ≤ (f1At 8).cursor.toNat ∧ (f1At 8).cursor.toNat < ex1.H + 5 + (f1At 8).len.toNat + ex1.T) ∧
    (ex1.H + 5 ≤ (f1At 15).cursor.toNat ∧
      (f1At 15).cursor.toNat < ex1.H + 5 + (f1At 15).len.toNat + ex1.T) := by decide

/-- Every window at its edges: the code a read of `STATE` shows. -/
theorem test_windows : (([0, 2, 3, 4, 5, 6, 7, 8, 13, 14, 15] : List Nat).map fun c => windowCode (windowAt ex1 c 6)) =
    [0, 0, 1, 2, 3, 4, 5, 6, 6, 7, 7] := by decide

theorem witness_StatusReadStops : ({ start [] with status := 7 } : State).status = 7 ∧
    ({ start [] with status := 4 } : State).status = 4 := by decide

/-- A write elsewhere, an illegal command word, a byte, and a release of RST. -/
theorem witness_OnlyCommands : (1 : Word) ≠ 0 ∧
    ∀ x ∈ ([.regWrite 1 0, .regWrite 0 0x04000000, .byte 0xA5, .rst false] : List Input),
      goesOn (perform x (start f1)) = true ∧ x ≠ .rst true ∧ ∀ v i, x = .regWrite 0 v → decode v ≠ .ok i := by
  refine ⟨by decide, fun x hx => ?_⟩
  simp only [List.mem_cons, List.not_mem_nil, or_false] at hx
  rcases hx with rfl | rfl | rfl | rfl
  · exact ⟨by decide, by decide, by intro v i h; cases h⟩
  · exact ⟨by decide, by decide, by intro v i h hd; cases h; cases hd⟩
  · exact ⟨by decide, by decide, by intro v i h; cases h⟩
  · exact ⟨by decide, by decide, by intro v i h; cases h⟩

/-- One step of each command error: the flag it sets. -/
theorem witness_ErrorFlags : (nextOf (step (todo [.regWrite 0 0x04000000]))).err = 1 ∧
    (nextOf (step (todo [.regWrite 1 0]))).err = 2 ∧ (nextOf (step (todo [.regRead 0xF]))).err = 4 := by decide

/-! ### Hypotheses met: steps, the port, reset -/

theorem witness_StepRuns : idle (todo [.regWrite 0 0x03000001]) ∧
    (todo [.regWrite 0 0x03000001]).pending = .regWrite 0 0x03000001 :: [] ∧
    decode 0x03000001 = .ok (.fpBatch 1) := ⟨by decide, rfl, rfl⟩

theorem witness_ReadStep : idle (todo [.regRead 0xA]) ∧ (todo [.regRead 0xA]).pending = .regRead 0xA :: [] ∧
    regRead 0xA (todo []) = .next (0, todo []) := ⟨by decide, rfl, rfl⟩

/-- A byte arrives at an idle machine, and during a wait with a transaction before it. -/
theorem witness_ByteArrival : (inputTurn (todo [.byte 1]) ∧ nextInput (todo [.byte 1]) = some (.byte 1, [])) ∧
    (inputTurn (waiting [.regRead 1, .byte 1]) ∧
      nextInput (waiting [.regRead 1, .byte 1]) = some (.byte 1, [.regRead 1])) := by decide

theorem witness_Queue : goesOn (step (todo [.byte 1])) = true ∧
    goesOn (step { waiting [] with q := [0xC3] }) = true := by decide

theorem witness_WaitingBatchBlocks : (waiting [.regRead 1, .byte 1]).batch = some ⟨4, 2, false, false⟩ ∧
    (waiting [.regRead 1, .byte 1]).q = [] ∧ goesOn (step (waiting [.regRead 1, .byte 1])) = true := by decide

/-- A reset of an idle machine, and of a waiting one with a transaction before it. -/
theorem witness_BlockReset : (inputTurn (mk f1Tail [1] [.rst true]) ∧
      nextInput (mk f1Tail [1] [.rst true]) = some (.rst true, [])) ∧
    (inputTurn (waiting [.regRead 1, .rst true]) ∧
      nextInput (waiting [.regRead 1, .rst true]) = some (.rst true, [.regRead 1])) ∧ ex1.Legal := by decide

theorem witness_ResetEndsAWait : (waiting [.rst true]).batch = some ⟨4, 2, false, false⟩ ∧
    (waiting [.rst true]).q = [] ∧ nextInput (waiting [.rst true]) = some (.rst true, []) ∧
    (nextOf (step (waiting [.rst true]))).batch ≠ some ⟨4, 2, false, false⟩ ∧
    (nextOf (step (waiting [.byte 1]))).q ≠ [] := by decide

theorem witness_NothingExecutes : (held [.regRead 1, .byte 1]).rstAsserted = true ∧
    (held [.regRead 1, .byte 1]).batch = none ∧ goesOn (step (held [.regRead 1, .byte 1])) = true := by decide

/-- RST is released before a command, and during a wait (a release of what is not asserted). -/
theorem witness_ReleasedReset : (inputTurn (held [.rst false, .regWrite 0 0x01000000]) ∧
      nextInput (held [.rst false, .regWrite 0 0x01000000]) = some (.rst false, [.regWrite 0 0x01000000])) ∧
    (inputTurn (waiting [.rst false]) ∧ nextInput (waiting [.rst false]) = some (.rst false, [])) ∧
    (held [.rst false, .regWrite 0 0x01000000]).batch = none ∧
    decodeTableWord 32 0x01000000 = some .csClr := by decide

/-- An assertion of RST leaves it asserted; a transaction issued before its release runs after it (log 5). -/
theorem test_reset_level : (nextOf (step (todo [.rst true]))).rstAsserted = true ∧
    (nextOf (step (nextOf (step (held [.regRead 0xC, .rst false]))))).replies = [8] := by decide

theorem witness_ParametersNeverChange : goesOn (step (todo [.regWrite 0 0x01000000])) = true := by decide

theorem witness_EveryStepKeeps : StateInv (mk f1Tail [0x0D] [.regWrite 0 0x03000001]) ∧
    frameSumCovers ex1 f1Tail ∧ goesOn (step (mk f1Tail [0x0D] [.regWrite 0 0x03000001])) = true :=
  ⟨witness_StateInv _ _, witness_frameSumCovers, by decide⟩

end Sys2Proof.Tests
end

/-! SUPPORT and the statements of 10_state.md about windows and reset. -/

namespace Sys2Proof.Machine

/-! ### The windows as places of the cursor -/

/-- The place of the cursor that each code of `STATE` stands for (the table of 10_state.md R21); the tail's upper end is
10_state.md R19's bound and not part of it. -/
def standsIn (p : Params) (c : Nat) (len : Half) : Window → Prop
  | .header => c < p.H
  | .cmd => c = p.H
  | .lenHi => c = p.H + 1
  | .lenLo => c = p.H + 2
  | .csHi => c = p.H + 3
  | .csLo => c = p.H + 4
  | .payload => p.H + 5 ≤ c ∧ c < p.H + 5 + len.toNat
  | .tail => p.H + 5 + len.toNat ≤ c

theorem standsIn_windowAt (p : Params) (c : Nat) (len : Half) : standsIn p c len (windowAt p c len) := by
  rcases windowAt_cases p c len with
    ⟨h, hc⟩ | ⟨h, hc⟩ | ⟨h, hc⟩ | ⟨h, hc⟩ | ⟨h, hc⟩ | ⟨h, hc⟩ | ⟨h, hc⟩ | ⟨h, hc⟩ <;>
    rw [h] <;> exact hc

theorem windowAt_eq_iff_standsIn {p : Params} {c : Nat} {len : Half} {w : Window} :
    windowAt p c len = w ↔ standsIn p c len w := by
  constructor
  · rintro rfl
    exact standsIn_windowAt p c len
  · intro h
    cases w with
    | header => exact windowAt_header h
    | cmd => exact windowAt_cmd h
    | lenHi => exact windowAt_lenHi h
    | lenLo => exact windowAt_lenLo h
    | csHi => exact windowAt_csHi h
    | csLo => exact windowAt_csLo h
    | payload => exact windowAt_payload h.1 h.2
    | tail => exact windowAt_tail h

/-- A cursor inside a frame that stands in the tail window stands before the frame's end (10_state.md R19). -/
theorem standsIn_tail_iff {p : Params} {f : Frame} (hf : cursorInFrame p f) :
    standsIn p f.cursor.toNat f.len .tail ↔
      p.H + 5 + f.len.toNat ≤ f.cursor.toNat ∧ f.cursor.toNat < p.H + 5 + f.len.toNat + p.T := by
  refine ⟨fun h => ⟨h, ?_⟩, And.left⟩
  rcases hf with hbefore | ⟨-, hend⟩
  · simp only [standsIn] at h
    omega
  · exact hend

/-! ### What a read of `STATE` returns -/

/-- A window's code as a read of `STATE` shows it (10_state.md R21; 20_memory.md R40). -/
def stateWord (w : Window) : Word := (windowCode w).setWidth 32

theorem stateWord_injective : Function.Injective stateWord := by
  intro w w'
  cases w <;> cases w' <;> decide

/-- The value of a read of `STATE` (20_memory.md R38, R40). -/
def stateValue (s : State) : Word := stateWord (frameWindow s.params s.frame)

theorem regRead_state (s : State) : regRead 0x2 s = .next (stateValue s, s) := rfl

theorem stateValue_le (s : State) : (stateValue s).toNat ≤ 7 := by
  have := (windowCode (frameWindow s.params s.frame)).isLt
  rw [stateValue, stateWord, BitVec.toNat_setWidth]
  omega

/-- `STATE` shows a window's code exactly where the cursor stands in that window (10_state.md R21). -/
theorem stateValue_eq_iff (s : State) (w : Window) :
    stateValue s = stateWord w ↔ standsIn s.params s.frame.cursor.toNat s.frame.len w :=
  stateWord_injective.eq_iff.trans windowAt_eq_iff_standsIn

/-! ### The cursor at 0, and the reset values -/

theorem configParams_legal : Config.params.Legal := by
  simp only [Params.Legal, Params.H, Params.T, Params.C, Config.params, List.length_map, List.length_range]
  omega

theorem frameWindow_of_cursor_zero {p : Params} {f : Frame} (hp : p.Legal) (hc : f.cursor = 0) :
    frameWindow p f = .header := by
  obtain ⟨⟨hH, -⟩, -, -⟩ := hp
  exact windowAt_header (by rw [hc]; exact hH)

theorem headerMatched_of_cursor_zero (p : Params) {f : Frame} (hc : f.cursor = 0) : headerMatched p f = 0 := by
  simp [headerMatched, hc]

theorem regRead_state_of_cursor_zero {s : State} (hp : s.params.Legal) (hc : s.frame.cursor = 0) :
    regRead 0x2 s = .next (0, s) := by
  rw [regRead_state, stateValue, frameWindow_of_cursor_zero hp hc]
  rfl

@[simp] theorem Frame.reset_cursor : Frame.reset.cursor = 0 := rfl
@[simp] theorem Frame.reset_cmd : Frame.reset.cmd = 0 := rfl
@[simp] theorem Frame.reset_len : Frame.reset.len = 0 := rfl
@[simp] theorem Frame.reset_expcs : Frame.reset.expcs = 0 := rfl
@[simp] theorem Frame.reset_fs1 : Frame.reset.fs1 = 0 := rfl
@[simp] theorem Frame.reset_fs2 : Frame.reset.fs2 = 0 := rfl
@[simp] theorem Frame.reset_pb_read? (i : Nat) : Frame.reset.pb.read? i = none := rfl
@[simp] theorem frameChecksum_reset : frameChecksum Frame.reset = 0 := rfl
@[simp] theorem csOut_blockReset (s : State) : csOut (blockReset s) = 0 := by simp [csOut, packBytes]

/-- With no batch able to go on, an assertion of RST that comes next is the block reset (70_reset_and_hazards.md R122). -/
theorem step_rst {s : State} {rest : List Input} (hw : inputTurn s) (hn : nextInput s = some (.rst true, rest)) :
    step s = .next (blockReset { s with pending := rest }) :=
  step_input hw hn

/-! ### The obligations -/

/-- Settles O36: each code is its window's place of the cursor, read off `windowAt`; only the tail needs R19's bound. -/
theorem stateNamesTheWindow : Obligations.StateNamesTheWindow := by
  refine ⟨fun s hf => ⟨stateValue s, regRead_state s, stateValue_le s, ?_⟩,
    fun s hp hc => regRead_state_of_cursor_zero hp hc,
    regRead_state_of_cursor_zero configParams_legal rfl⟩
  have code := stateValue_eq_iff s
  exact ⟨code .header, code .cmd, code .lenHi, code .lenLo, code .csHi, code .csLo, code .payload,
    (code .tail).trans (standsIn_tail_iff hf)⟩

/-- Settles O46: the step is the block reset of the state with the assertion taken off the inputs. -/
theorem blockResetSetsEveryRegister : Obligations.BlockResetSetsEveryRegister := by
  intro s rest hw hn
  refine ⟨blockReset { s with pending := rest }, step_rst hw hn, ?_⟩
  have hmatch := headerMatched_of_cursor_zero s.params Frame.reset_cursor
  have hwin : s.params.Legal → frameWindow s.params Frame.reset = .header :=
    fun hp => frameWindow_of_cursor_zero hp Frame.reset_cursor
  simpa [hmatch] using hwin

end Sys2Proof.Machine

/-! SUPPORT and the statements of 20_memory.md about the register transactions. -/

namespace Sys2Proof.Machine

/-! ### A write transaction -/

@[simp] theorem regWrite_cmdw (v : Word) (s : State) : regWrite 0 v s = execute v s := rfl

theorem regWrite_elsewhere {idx : Word} (h : idx ≠ 0) (v : Word) (s : State) :
    regWrite idx v s = .next (raiseCmdError .badwr s) := if_neg h

/-! ### The registers a command error, a reply, a byte and a release of RST leave alone -/

/-- Every register but `ERR` is the same in both states: the frame parser's (`PB` among them), the checksum engine's, a
waiting batch, and the parameters the constant registers show (20_memory.md R38). -/
def sameButErr (s t : State) : Prop :=
  t.frame = s.frame ∧ t.status = s.status ∧ t.bcnt = s.bcnt ∧ t.s1 = s.s1 ∧ t.s2 = s.s2 ∧ t.batch = s.batch ∧
    t.params = s.params

theorem sameButErr.refl (s : State) : sameButErr s s := ⟨rfl, rfl, rfl, rfl, rfl, rfl, rfl⟩

theorem sameButErr_raiseCmdError (e : CmdError) (s : State) : sameButErr s (raiseCmdError e s) := by simp [sameButErr]

theorem sameButErr_reply_iff {v : Word} {s t : State} : sameButErr s (reply v t) ↔ sameButErr s t := by
  simp [sameButErr]

theorem sameButErr_appendByte (b : Byte) (s : State) : sameButErr s (appendByte b s) := by simp [sameButErr]

theorem sameButErr_releaseReset (s : State) : sameButErr s (releaseReset s) := by simp [sameButErr]

theorem regRead_sameButErr {idx v : Word} {s t : State} (h : regRead idx s = .next (v, t)) : sameButErr s t := by
  obtain ⟨rfl, -⟩ | ⟨rfl, -, -⟩ := regRead_cases h
  · exact sameButErr.refl _
  · exact sameButErr_raiseCmdError _ _

/-- Of all inputs, only a legal command word written to `CMDW` and an assertion of RST can change a register other than
`ERR` (20_memory.md R41). -/
theorem perform_sameButErr {x : Input} {s t : State} (h : perform x s = .next t) (hrst : x ≠ .rst true)
    (hcmd : ∀ v i, x = .regWrite 0 v → decode v ≠ .ok i) : sameButErr s t := by
  obtain ⟨v, i, hx, hd, -⟩ | ⟨v, e, -, -, rfl⟩ | ⟨idx, v, -, -, rfl⟩ | ⟨idx, v, u, -, hread, rfl⟩ | ⟨b, -, rfl⟩ |
    ⟨hx, -⟩ | ⟨-, rfl⟩ := perform_cases h
  · exact absurd hd (hcmd v i hx)
  · exact sameButErr_raiseCmdError _ _
  · exact sameButErr_raiseCmdError _ _
  · exact sameButErr_reply_iff.2 (regRead_sameButErr hread)
  · exact sameButErr_appendByte _ _
  · exact absurd hx hrst
  · exact sameButErr_releaseReset _

/-! ### The obligation -/

/-- Settles O38: the two kinds of write as `regWrite` splits them, and the frame of every input from what it can do. -/
theorem onlyCommandsAndResetChangeRegisters : Obligations.OnlyCommandsAndResetChangeRegisters :=
  ⟨fun _ v s h => regWrite_elsewhere h v s, regWrite_cmdw, fun _ _ _ => perform_sameButErr⟩

end Sys2Proof.Machine

/-! SUPPORT and the statements of 30_encoding.md: what the decoder answers, the effect of an illegal word, and `CSUM`. -/

namespace Sys2Proof

/-! ### The decoder, by the row a word matches -/

theorem forall_mem_opcodeMap {P : Row → Prop} :
    (∀ r ∈ opcodeMap, P r) ↔ P rowCsClr ∧ P rowCsByte ∧ P rowFpBatch := by
  simp [opcodeMap]

/-- No word matches two rows: a row's opcode is its own (30_encoding.md R58). -/
theorem row_eq_of_hits {r r' : Row} (hr : r ∈ opcodeMap) (hr' : r' ∈ opcodeMap) {w : Word}
    (h : r.hits w = true) (h' : r'.hits w = true) : r = r' := by
  have hop : opField r.bits = opField r'.bits := (opField_of_hits hr h).symm.trans (opField_of_hits hr' h')
  have opcodes : ∀ r ∈ opcodeMap, ∀ r' ∈ opcodeMap, opField r.bits = opField r'.bits → r = r' := by decide
  exact opcodes r hr r' hr' hop

theorem decode_of_rowCsClr {w : Word} (h : rowCsClr.hits w = true) : decode w = .ok .csClr := if_pos h

theorem decode_of_rowCsByte {w : Word} (h : rowCsByte.hits w = true) : decode w = .ok (.csByte (opdLow w)) := by
  have hclr : ¬rowCsClr.hits w = true := fun h' =>
    absurd (row_eq_of_hits (by decide) (by decide) h h') (by decide)
  rw [decode, if_neg hclr, if_pos h]

theorem decode_of_rowFpBatch {w : Word} (h : rowFpBatch.hits w = true) : decode w = .ok (.fpBatch (opdField w)) := by
  have hclr : ¬rowCsClr.hits w = true := fun h' =>
    absurd (row_eq_of_hits (by decide) (by decide) h h') (by decide)
  have hbyte : ¬rowCsByte.hits w = true := fun h' =>
    absurd (row_eq_of_hits (by decide) (by decide) h h') (by decide)
  rw [decode, if_neg hclr, if_neg hbyte, if_pos h]

theorem decode_of_no_row {w : Word} (h : ∀ r ∈ opcodeMap, ¬r.hits w = true) :
    decode w = .error (illegalClass w) := by
  rw [decode, if_neg (h rowCsClr (by decide)), if_neg (h rowCsByte (by decide)), if_neg (h rowFpBatch (by decide))]

/-- What a word decodes to, by the row it matches (30_encoding.md R58, R59). -/
theorem decode_cases (w : Word) :
    (rowCsClr.hits w = true ∧ decode w = .ok .csClr) ∨
    (rowCsByte.hits w = true ∧ decode w = .ok (.csByte (opdLow w))) ∨
    (rowFpBatch.hits w = true ∧ decode w = .ok (.fpBatch (opdField w))) ∨
    ((∀ r ∈ opcodeMap, ¬r.hits w = true) ∧ decode w = .error (illegalClass w)) := by
  by_cases hclr : rowCsClr.hits w = true
  · exact .inl ⟨hclr, decode_of_rowCsClr hclr⟩
  by_cases hbyte : rowCsByte.hits w = true
  · exact .inr (.inl ⟨hbyte, decode_of_rowCsByte hbyte⟩)
  by_cases hbatch : rowFpBatch.hits w = true
  · exact .inr (.inr (.inl ⟨hbatch, decode_of_rowFpBatch hbatch⟩))
  have hno : ∀ r ∈ opcodeMap, ¬r.hits w = true := forall_mem_opcodeMap.2 ⟨hclr, hbyte, hbatch⟩
  exact .inr (.inr (.inr ⟨hno, decode_of_no_row hno⟩))

/-! ### The legal words are the encodings -/

@[simp] theorem decode_encode (i : Instr) : decode (encode i) = .ok i := by
  cases i with
  | csClr => exact decode_of_rowCsClr Laws.EncodedInItsRow.csClr
  | csByte b => rw [decode_of_rowCsByte (Laws.EncodedInItsRow.csByte b), opdLow_encode_csByte]
  | fpBatch n => rw [decode_of_rowFpBatch (Laws.EncodedInItsRow.fpBatch n), opdField_encode_fpBatch]

theorem encode_csByte_opdLow {w : Word} (h : rowCsByte.hits w = true) : encode (.csByte (opdLow w)) = w := by
  obtain ⟨hop, hrsv, hhigh⟩ := (rowCsByte_hits_iff w).1 h
  obtain ⟨hw, hopd⟩ := word_toNat w
  apply BitVec.eq_of_toNat_eq
  rw [encode_csByte_toNat, hw, hopd, hop, hrsv, hhigh]
  simp

theorem encode_fpBatch_opdField {w : Word} (h : rowFpBatch.hits w = true) : encode (.fpBatch (opdField w)) = w := by
  obtain ⟨hop, hrsv⟩ := (rowFpBatch_hits_iff w).1 h
  apply BitVec.eq_of_toNat_eq
  rw [encode_fpBatch_toNat, (word_toNat w).1, hop, hrsv]
  simp

theorem encode_csClr_of_hits {w : Word} (h : rowCsClr.hits w = true) : encode .csClr = w :=
  ((word_ext_iff w (encode .csClr)).2 ((rowCsClr_hits_iff w).1 h)).symm

/-- Each command has one word only (30_encoding.md R58). -/
theorem encode_of_decode {w : Word} {i : Instr} (h : decode w = .ok i) : encode i = w := by
  obtain ⟨hrow, hd⟩ | ⟨hrow, hd⟩ | ⟨hrow, hd⟩ | ⟨-, hd⟩ := decode_cases w <;> rw [hd] at h <;> cases h
  · exact encode_csClr_of_hits hrow
  · exact encode_csByte_opdLow hrow
  · exact encode_fpBatch_opdField hrow

theorem decode_eq_ok_iff {w : Word} {i : Instr} : decode w = .ok i ↔ encode i = w :=
  ⟨encode_of_decode, fun h => h ▸ decode_encode i⟩

theorem encode_injective : Function.Injective encode := fun i j h => by
  have hij : Except.ok i = Except.ok (ε := Illegal) j := by rw [← decode_encode i, h, decode_encode]
  exact Except.ok.inj hij

theorem legalWords_eq_range_encode : {w : Word | ∃ i, decode w = .ok i} = Set.range encode :=
  Set.ext fun _ => exists_congr fun _ => decode_eq_ok_iff

/-- A command is `CS.CLR`, a byte for `CS.BYTE`, or a count for `FP.BATCH` (30_encoding.md R56, R57). -/
def instrEquiv : Instr ≃ Unit ⊕ Byte ⊕ Half where
  toFun
    | .csClr => .inl ()
    | .csByte b => .inr (.inl b)
    | .fpBatch n => .inr (.inr n)
  invFun
    | .inl () => .csClr
    | .inr (.inl b) => .csByte b
    | .inr (.inr n) => .fpBatch n
  left_inv i := by cases i <;> rfl
  right_inv x := by rcases x with _ | _ | _ <;> rfl

theorem natCard_bitVec (n : Nat) : Nat.card (BitVec n) = 2 ^ n :=
  (Nat.card_congr BitVec.equivFin.toEquiv).trans (Nat.card_fin _)

theorem natCard_instr : Nat.card Instr = 65793 := by
  rw [Nat.card_congr instrEquiv, Nat.card_sum, Nat.card_sum, natCard_bitVec, natCard_bitVec, Nat.card_unique]
  norm_num

/-! ### The illegal words, by their fields -/

/-- A word is illegal exactly where it matches no row (30_encoding.md R59). -/
theorem decode_eq_error_iff (w : Word) : (∃ e, decode w = .error e) ↔ ∀ r ∈ opcodeMap, ¬r.hits w = true := by
  constructor
  · rintro ⟨e, he⟩
    obtain ⟨-, hd⟩ | ⟨-, hd⟩ | ⟨-, hd⟩ | ⟨hno, -⟩ := decode_cases w
    · cases hd.symm.trans he
    · cases hd.symm.trans he
    · cases hd.symm.trans he
    · exact hno
  · exact fun hno => ⟨illegalClass w, decode_of_no_row hno⟩

theorem opdField_eq_zero_iff (w : Word) : opdField w = 0 ↔ opdHigh w = 0 ∧ opdLow w = 0 := by
  simp only [← BitVec.toNat_inj, BitVec.ofNat_eq_ofNat, BitVec.toNat_ofNat, (word_toNat w).2]
  omega

/-- An opcode is a row's, or one of the first class of 30_encoding.md R59. -/
theorem opcode_cases (op : Byte) : op = 0x01 ∨ op = 0x02 ∨ op = 0x03 ∨
    ((op = 0x00 ∨ 0x04 ≤ op.toNat) ∧ op ≠ 0x01 ∧ op ≠ 0x02 ∧ op ≠ 0x03) := by
  simp only [ne_eq, ← BitVec.toNat_inj, BitVec.ofNat_eq_ofNat, BitVec.toNat_ofNat]
  omega

/-- The four classes of 30_encoding.md R59. -/
theorem illegal_iff (w : Word) : (∃ e, decode w = .error e) ↔
    (opField w = 0x00 ∨ 0x04 ≤ (opField w).toNat) ∨
    ((opField w = 0x01 ∨ opField w = 0x02 ∨ opField w = 0x03) ∧ rsvField w ≠ 0) ∨
    (opField w = 0x01 ∧ opdField w ≠ 0) ∨
    (opField w = 0x02 ∧ opdHigh w ≠ 0) := by
  rw [decode_eq_error_iff, forall_mem_opcodeMap, rowCsClr_hits_iff, rowCsByte_hits_iff, rowFpBatch_hits_iff,
    Ne.eq_def (opdField w), opdField_eq_zero_iff]
  obtain h | h | h | ⟨h, h1, h2, h3⟩ := opcode_cases (opField w)
  · simp [h, imp_iff_not_or]
  · simp [h, imp_iff_not_or]
  · simp [h]
  · exact iff_of_true ⟨fun h' => h1 h'.1, fun h' => h2 h'.1, fun h' => h3 h'.1⟩ (.inl h)

end Sys2Proof

namespace Sys2Proof.Machine

/-! ### `Execute` and the write to `CMDW` -/

theorem execute_of_decode {w : Word} {i : Instr} (h : decode w = .ok i) (s : State) : execute w s = exec i s := by
  simp [execute, h]

theorem execute_of_illegal {w : Word} (h : ∃ e, decode w = .error e) (s : State) :
    execute w s = .next { s with err := s.err ||| 1 } := by
  obtain ⟨e, he⟩ := h
  simp only [execute, he]
  rfl

/-- Every command goes on, and leaves `ERR` as it is. -/
theorem exec_next_err (i : Instr) (s : State) : ∃ t, exec i s = .next t ∧ t.err = s.err := by
  cases i with
  | csClr => exact ⟨_, rfl, rfl⟩
  | csByte b => exact ⟨_, rfl, rfl⟩
  | fpBatch n => exact ⟨_, rfl, runBatch_err _ _⟩

/-! ### `ERR` is sticky -/

/-- Every bit of `ERR` that is set in the first state is set in the second. -/
def errKept (s t : State) : Prop := ∃ m, t.err = s.err ||| m

theorem errKept_of_eq {s t : State} (h : t.err = s.err) : errKept s t := ⟨0, by simp [h]⟩

theorem errKept_raiseCmdError (e : CmdError) (s : State) : errKept s (raiseCmdError e s) := ⟨_, raiseCmdError_err e s⟩

theorem errKept_reply_iff {v : Word} {s t : State} : errKept s (reply v t) ↔ errKept s t := Iff.rfl

theorem errKept.illcmd {s t : State} (h : errKept s t) (hs : s.err &&& 1 = 1) : t.err &&& 1 = 1 := by
  obtain ⟨m, hm⟩ := h
  rw [hm, BitVec.and_or_distrib_right, hs]
  ext i hi
  rw [BitVec.getElem_or, BitVec.getElem_and]
  exact Bool.or_eq_left_iff_imp.2 fun h => (Bool.and_eq_true_iff.1 h).2

theorem exec_errKept {i : Instr} {s t : State} (h : exec i s = .next t) : errKept s t := by
  obtain ⟨u, hu, herr⟩ := exec_next_err i s
  cases h.symm.trans hu
  exact errKept_of_eq herr

theorem regRead_errKept {idx v : Word} {s t : State} (h : regRead idx s = .next (v, t)) : errKept s t := by
  obtain ⟨rfl, -⟩ | ⟨rfl, -, -⟩ := regRead_cases h
  · exact errKept_of_eq rfl
  · exact errKept_raiseCmdError _ _

/-- Only an assertion of RST clears a bit of `ERR` (10_state.md R30). -/
theorem perform_errKept {x : Input} {s t : State} (h : perform x s = .next t) (hx : x ≠ .rst true) : errKept s t := by
  obtain ⟨v, i, -, -, hexec⟩ | ⟨v, e, -, -, rfl⟩ | ⟨idx, v, -, -, rfl⟩ | ⟨idx, v, u, -, hread, rfl⟩ | ⟨b, -, rfl⟩ |
    ⟨hrst, -⟩ | ⟨-, rfl⟩ := perform_cases h
  · exact exec_errKept hexec
  · exact errKept_raiseCmdError _ _
  · exact errKept_raiseCmdError _ _
  · exact errKept_reply_iff.2 (regRead_errKept hread)
  · exact errKept_of_eq rfl
  · exact absurd hrst hx
  · exact errKept_of_eq rfl

theorem step_errKept {s t : State} (h : step s = .next t) :
    errKept s t ∨ ∃ rest, nextInput s = some (.rst true, rest) := by
  obtain ⟨bt, -, -, hgo⟩ | ⟨-, x, rest, hnext, hinput⟩ | ⟨-, -, hidle⟩ := step_cases s
  · cases h.symm.trans hgo
    exact .inl (errKept_of_eq (runBatch_err bt s))
  · by_cases hx : x = .rst true
    · exact .inr ⟨rest, hx ▸ hnext⟩
    · exact .inl (perform_errKept (s := { s with pending := rest }) (hinput.symm.trans h) hx)
  · cases h.symm.trans hidle
    exact .inl (errKept_of_eq rfl)

/-! ### `CSUM` -/

/-- The word `CS.BYTE` with a byte of an assembler line (30_encoding.md R56, R62). -/
theorem commandWrite_csByte {b : Nat} (hb : b ≤ 255) :
    commandWrite (.csByte (BitVec.ofNat 8 b)) = .regWrite 0 (0x02000000 ||| BitVec.ofNat 32 b) := by
  have h : (BitVec.ofNat 8 b).setWidth 32 = BitVec.ofNat 32 b := by
    apply BitVec.eq_of_toNat_eq
    simp only [BitVec.toNat_setWidth, BitVec.toNat_ofNat]
    omega
  simp only [commandWrite, encode, h]

theorem assembleLine_csum {bs : List Nat} (hbs : ∀ b ∈ bs, b ≤ 255) :
    assembleLine (.csum bs) = some (.regWrite 0 0x01000000 ::
      bs.map (fun b => .regWrite 0 (0x02000000 ||| BitVec.ofNat 32 b))) := by
  have hwf : (Line.csum bs).wf = true := by simpa [Line.wf] using hbs
  rw [assembleLine, if_pos hwf, lineInputs]
  exact congrArg some (congrArg _ (List.map_congr_left fun b hb => commandWrite_csByte (hbs b hb)))

/-- From an idle state whose next input is a command's write, a step is the command (20_memory.md R41). -/
theorem step_commandWrite {s : State} (hi : idle s) (i : Instr) (rest : List Input) :
    step { s with pending := commandWrite i :: rest } = exec i { s with pending := rest } :=
  (step_open (s := { s with pending := commandWrite i :: rest }) hi rfl).trans (execute_of_decode (decode_encode i) _)

/-- Writes of `CS.BYTE`, one after another, fold their bytes into `S1` and `S2` and change nothing else. -/
theorem core_run_csBytes (bytes : List Byte) (rest : List Input) : ∀ {s : State}, idle s →
    Host.Core.run Sys2Proof.core bytes.length
        { s with pending := bytes.map (fun b => commandWrite (.csByte b)) ++ rest } =
      .next { s with
        pending := rest
        s1 := (foldAll (s.s1, s.s2) bytes).1
        s2 := (foldAll (s.s1, s.s2) bytes).2 } := by
  induction bytes with
  | nil => exact fun _ => rfl
  | cons b bytes ih =>
    intro s hi
    rw [List.map_cons, List.cons_append, List.length_cons, core_run_next (step_commandWrite hi (.csByte b) _)]
    exact ih (s := { s with s1 := (fold (s.s1, s.s2) b).1, s2 := (fold (s.s1, s.s2) b).2 }) hi

/-- The inputs of `CSUM` leave the folded bytes in `S1` and `S2` and change nothing else (30_encoding.md R63). -/
theorem core_run_csum (bs : List Nat) (rest : List Input) {s : State} (hi : idle s) :
    Host.Core.run Sys2Proof.core (1 + bs.length) { s with pending := lineInputs (.csum bs) ++ rest } =
      .next { s with
        pending := rest
        s1 := (foldAll (0, 0) (bs.map (BitVec.ofNat 8))).1
        s2 := (foldAll (0, 0) (bs.map (BitVec.ofNat 8))).2 } := by
  have bytes := core_run_csBytes (bs.map (BitVec.ofNat 8)) rest (s := { s with s1 := 0, s2 := 0 }) hi
  rw [List.map_map, List.length_map] at bytes
  rw [Nat.add_comm, lineInputs, List.cons_append, core_run_next (step_commandWrite hi .csClr _)]
  exact bytes

/-! ### The obligations -/

/-- Settles O3: the rows' masked matches are the branches of `decode`, disjoint by their opcodes; the legal words are the
encodings, one a command. -/
theorem executeSelectsByTheOpcodeMap : Obligations.ExecuteSelectsByTheOpcodeMap := by
  have disjoint : ∀ r ∈ opcodeMap, ∀ r' ∈ opcodeMap, r ≠ r' → ∀ w : Word,
      ¬(w &&& r.mask = r.bits ∧ w &&& r'.mask = r'.bits) := fun r hr r' hr' hne w h =>
    hne (row_eq_of_hits hr hr' (beq_iff_eq.2 h.1) (beq_iff_eq.2 h.2))
  refine ⟨fun w s => ⟨fun h => ?_, fun h => ?_, fun h => ?_, fun hclr hbyte hbatch => ?_, ?_, ?_, ?_⟩, ?_⟩
  · exact execute_of_decode (decode_of_rowCsClr (beq_iff_eq.2 h)) s
  · exact execute_of_decode (decode_of_rowCsByte (beq_iff_eq.2 h)) s
  · exact execute_of_decode (decode_of_rowFpBatch (beq_iff_eq.2 h)) s
  · exact execute_of_illegal ((decode_eq_error_iff w).2 (forall_mem_opcodeMap.2
      ⟨mt beq_iff_eq.1 hclr, mt beq_iff_eq.1 hbyte, mt beq_iff_eq.1 hbatch⟩)) s
  · exact disjoint rowCsClr (by decide) rowCsByte (by decide) (by decide) w
  · exact disjoint rowCsClr (by decide) rowFpBatch (by decide) (by decide) w
  · exact disjoint rowCsByte (by decide) rowFpBatch (by decide) (by decide) w
  · rw [legalWords_eq_range_encode, Set.ncard_range_of_injective encode_injective, natCard_instr]

/-- Settles O4: the classes are the fields of the words no row matches, and of all inputs only an assertion of RST clears a
bit of `ERR`. -/
theorem illegalWordsOnlySetIllcmd : Obligations.IllegalWordsOnlySetIllcmd :=
  ⟨fun _ _ h herr => (step_errKept h).imp_left (fun hkept => hkept.illcmd herr),
    fun w => ⟨illegal_iff w, fun hw s => ⟨execute_of_illegal hw s, fun i => exec_next_err i _⟩⟩⟩

/-- Settles O15: `CS.CLR` starts the fold at 0, and each `CS.BYTE` is one step of it. -/
theorem csumLeavesTheChecksum : Obligations.CsumLeavesTheChecksum :=
  fun bs rest _ hbs hi => ⟨assembleLine_csum hbs, _, core_run_csum bs rest hi, rfl, rfl⟩

end Sys2Proof.Machine

/-! SUPPORT and the statements of 40_checksum.md: the two commands of the CS unit, the laws of the fold, and the checksum
streamed through `CS.BYTE`. -/

namespace Sys2Proof

/-! ### The illegal words of the CS unit's opcodes -/

/-- `OP = 0x01` with any other bit set is illegal (40_checksum.md R74). -/
theorem illegal_of_opField_csClr {w : Word} (hop : opField w = 0x01) (hw : w ≠ encode .csClr) :
    ∃ e, decode w = .error e := by
  refine (decode_eq_error_iff w).2 (forall_mem_opcodeMap.2 ⟨fun h => hw (encode_csClr_of_hits h).symm, fun h => ?_,
    fun h => ?_⟩)
  · exact absurd (hop.symm.trans ((rowCsByte_hits_iff w).1 h).1) (by decide)
  · exact absurd (hop.symm.trans ((rowFpBatch_hits_iff w).1 h).1) (by decide)

/-- `OP = 0x02` with `OPD[15:8]` or `RSV` not 0 is illegal (40_checksum.md R75). -/
theorem illegal_of_opField_csByte {w : Word} (hop : opField w = 0x02) (hw : opdHigh w ≠ 0 ∨ rsvField w ≠ 0) :
    ∃ e, decode w = .error e :=
  (illegal_iff w).2 <| hw.elim (fun h => .inr (.inr (.inr ⟨hop, h⟩))) (fun h => .inr (.inl ⟨.inr (.inl hop), h⟩))

end Sys2Proof

namespace Sys2Proof.Machine

/-! ### The fold and the bytes of a checksum -/

/-- Byte 0xFF adds 255, which is 0 mod 255 (40_checksum.md R77). -/
theorem fold_ff (acc : Byte × Byte) : fold acc 0xFF = fold acc 0x00 := by
  have h : (acc.1.toNat + (0xFF : Byte).toNat) % 255 = (acc.1.toNat + (0x00 : Byte).toNat) % 255 :=
    Nat.add_mod_right ..
  simp only [fold, h]

theorem checksum_eq_packBytes (xs : List Byte) :
    checksum xs = packBytes (foldAll (0, 0) xs).1 (foldAll (0, 0) xs).2 := rfl

/-- A checksum depends on its bytes only through the accumulators they leave. -/
theorem checksum_congr {xs ys : List Byte} (h : foldAll (0, 0) xs = foldAll (0, 0) ys) : checksum xs = checksum ys := by
  rw [checksum_eq_packBytes, h, checksum_eq_packBytes]

/-- The two accumulators after a byte sequence (40_checksum.md R76). -/
theorem foldAll_zero_le (xs : List Byte) : (foldAll (0, 0) xs).1.toNat ≤ 254 ∧ (foldAll (0, 0) xs).2.toNat ≤ 254 :=
  foldAll_le xs (0, 0) (by decide) (by decide)

theorem byte_le_254_iff (a : Byte) : a.toNat ≤ 254 ↔ a ≠ 0xFF := by
  simp only [ne_eq, ← BitVec.toNat_inj, BitVec.ofNat_eq_ofNat, BitVec.toNat_ofNat]
  omega

theorem packBytes_zero : packBytes 0 0 = 0 := by decide

@[simp] theorem packBytes_high (a b : Byte) : (packBytes a b).extractLsb' 8 8 = a := by
  apply BitVec.eq_of_toNat_eq
  rw [BitVec.extractLsb'_toNat, packBytes_toNat, Nat.shiftRight_eq_div_pow]
  omega

@[simp] theorem packBytes_low (a b : Byte) : (packBytes a b).extractLsb' 0 8 = b := by
  apply BitVec.eq_of_toNat_eq
  rw [BitVec.extractLsb'_toNat, packBytes_toNat, Nat.shiftRight_eq_div_pow]
  omega

/-- The 255 × 255 pairs of bytes that can make up a checksum (40_checksum.md R76). -/
def checksumBytes : Set (Byte × Byte) := {0xFF}ᶜ ×ˢ {0xFF}ᶜ

theorem ncard_checksumBytes : checksumBytes.ncard = 65025 := by
  rw [checksumBytes, Set.ncard_prod, Set.ncard_compl, natCard_bitVec, Set.ncard_singleton]
  norm_num

theorem range_checksum_subset : Set.range checksum ⊆ Function.uncurry packBytes '' checksumBytes := by
  rintro _ ⟨xs, rfl⟩
  obtain ⟨h1, h2⟩ := foldAll_zero_le xs
  exact ⟨foldAll (0, 0) xs, ⟨(byte_le_254_iff _).1 h1, (byte_le_254_iff _).1 h2⟩, rfl⟩

/-! ### The frame checksum in a batch -/

/-- The frame checksum accumulators after a byte: kept, cleared by the command byte, or folded with a payload byte
(41_frame_parser.md R84, R89). -/
theorem stepByte_sums (p : Params) (f : Frame) (b : Byte) :
    ((stepByte p f b).frame.fs1 = f.fs1 ∧ (stepByte p f b).frame.fs2 = f.fs2) ∨
    ((stepByte p f b).frame.fs1 = 0 ∧ (stepByte p f b).frame.fs2 = 0) ∨
    ((stepByte p f b).frame.fs1 = (fold (f.fs1, f.fs2) b).1 ∧
      (stepByte p f b).frame.fs2 = (fold (f.fs1, f.fs2) b).2) := by
  obtain ⟨h, -⟩ | ⟨h, -⟩ | ⟨h, -⟩ | ⟨h, -⟩ | ⟨h, -⟩ | ⟨h, -⟩ | ⟨h, -⟩ | ⟨h, -⟩ | ⟨h, -⟩ | ⟨h, -⟩ :=
    stepByte_cases p f b <;> rw [h]
  any_goals exact .inl ⟨rfl, rfl⟩
  · exact .inr (.inl ⟨rfl, rfl⟩)
  · exact .inr (.inr ⟨rfl, rfl⟩)

/-- Both frame checksum accumulators are in 0..254 (10_state.md R26). -/
def sumsInRange (f : Frame) : Prop := f.fs1.toNat ≤ 254 ∧ f.fs2.toNat ≤ 254

theorem stepByte_sumsInRange {p : Params} {f : Frame} (b : Byte) (h : sumsInRange f) :
    sumsInRange (stepByte p f b).frame := by
  unfold sumsInRange
  obtain ⟨h1, h2⟩ | ⟨h1, h2⟩ | ⟨h1, h2⟩ := stepByte_sums p f b <;> rw [h1, h2]
  · exact h
  · decide
  · exact ⟨fold_fst_le .., fold_snd_le ..⟩

theorem runBatch_sumsInRange {bt : Batch} {s : State} (h : sumsInRange s.frame) :
    sumsInRange (runBatch bt s).frame := by
  rw [runBatch_frame]
  exact batchLoop_keeps (P := fun f _ => sumsInRange f) (fun _ _ b hf _ => stepByte_sumsInRange b hf) _ _ _ h

theorem endStatus_verified {bt : Batch} {f : Frame} (h : endStatus bt f = statusVerified) :
    frameChecksum f = f.expcs := by
  unfold endStatus at h
  split_ifs at h with hdone hsum
  · exact hsum
  all_goals exact absurd h (by decide)

/-- A batch that ends VERIFIED has found the expected checksum (41_frame_parser.md R94). -/
theorem runBatch_verified {bt : Batch} {s : State} (hend : (runBatch bt s).batch = none)
    (h : (runBatch bt s).status = statusVerified) :
    frameChecksum (runBatch bt s).frame = (runBatch bt s).frame.expcs := by
  obtain ⟨-, -, hwait, -⟩ | ⟨-, -, hstatus, -⟩ := runBatch_cases bt s
  · cases hwait.symm.trans hend
  · exact endStatus_verified (hstatus.symm.trans h)

theorem expcs_bytes_ne_ff {f : Frame} (hf : sumsInRange f) (h : frameChecksum f = f.expcs) :
    f.expcs.extractLsb' 8 8 ≠ (0xFF : Byte) ∧ f.expcs.extractLsb' 0 8 ≠ (0xFF : Byte) := by
  rw [← h, frameChecksum, packBytes_high, packBytes_low]
  exact ⟨(byte_le_254_iff _).1 hf.1, (byte_le_254_iff _).1 hf.2⟩

/-! ### The checksum engine along a run -/

/-- What every step that goes on keeps, a run keeps. -/
theorem core_run_keeps {P : State → Prop} (hstep : ∀ s t, P s → step s = .next t → P t) :
    ∀ (k : Nat) (s t : State), P s → Host.Core.run Sys2Proof.core k s = .next t → P t := by
  intro k
  induction k with
  | zero => intro s t hs h; cases h; exact hs
  | succ k ih =>
    intro s t hs h
    obtain ⟨u, hu, hrun⟩ := core_run_succ h
    exact ih u t (hstep s u hs hu) hrun

/-- The next input taken off the pending ones; one that overtakes others is no transaction (20_memory.md R49). -/
theorem nextInput_split {s : State} {x : Input} {rest : List Input} (h : nextInput s = some (x, rest)) :
    ∃ us vs, s.pending = us ++ x :: vs ∧ rest = us ++ vs ∧ (us = [] ∨ isTransaction x = false) := by
  cases hblk : portBlocked s with
  | true =>
    rw [nextInput_blocked hblk] at h
    obtain ⟨hx, -, us, vs, hp, hrest⟩ := takeNonTransaction_spec h
    exact ⟨us, vs, hp, hrest, .inr hx⟩
  | false =>
    cases hp : s.pending with
    | nil => simp [nextInput, hblk, hp] at h
    | cons y ys =>
      cases (nextInput_open hblk hp).symm.trans h
      exact ⟨[], rest, rfl, rfl, .inl rfl⟩

/-- The byte of an input is the operand of the `CS.BYTE` it is the write of (30_encoding.md R62). -/
theorem csByteOf_eq_some_iff {x : Input} {b : Byte} : csByteOf x = some b ↔ x = commandWrite (.csByte b) := by
  constructor
  · intro h
    unfold csByteOf at h
    split at h
    · split_ifs at h with hidx
      split at h <;> cases h
      next hd => rw [hidx, commandWrite, encode_of_decode hd]
    all_goals cases h
  · rintro rfl
    simp [csByteOf, commandWrite]

theorem csByteOf_eq_none {x : Input} (h : ∀ b, x ≠ commandWrite (.csByte b)) : csByteOf x = none :=
  Option.eq_none_iff_forall_not_mem.2 fun b hb => h b (csByteOf_eq_some_iff.1 hb)

/-- The bytes to be folded, the next input's first: an input that overtakes others folds none. -/
theorem nextInput_csBytes {s : State} {x : Input} {rest : List Input} (h : nextInput s = some (x, rest)) :
    s.pending.filterMap csByteOf = (csByteOf x).toList ++ rest.filterMap csByteOf := by
  obtain ⟨us, vs, hp, rfl, hx⟩ := nextInput_split h
  obtain rfl | hx := hx
  · cases hc : csByteOf x <;> simp [hp, hc]
  · have hnone : csByteOf x = none := csByteOf_eq_none fun b hb => by rw [hb] at hx; cases hx
    simp [hp, hnone]

theorem perform_commandWrite (i : Instr) (s : State) : perform (commandWrite i) s = exec i s :=
  execute_of_decode (decode_encode i) s

theorem exec_pending {i : Instr} {s t : State} (h : exec i s = .next t) : t.pending = s.pending := by
  obtain ⟨-, rfl⟩ | ⟨b, -, rfl⟩ | ⟨n, -, rfl⟩ := exec_cases h
  · rfl
  · rfl
  · exact runBatch_pending _ _

/-- No input's effect changes the inputs still to come. -/
theorem perform_pending {x : Input} {s t : State} (h : perform x s = .next t) : t.pending = s.pending := by
  obtain ⟨v, i, -, -, hexec⟩ | ⟨v, e, -, -, rfl⟩ | ⟨idx, v, -, -, rfl⟩ | ⟨idx, v, u, -, hread, rfl⟩ | ⟨b, -, rfl⟩ |
    ⟨-, rfl⟩ | ⟨-, rfl⟩ := perform_cases h
  any_goals rfl
  · exact exec_pending hexec
  · obtain ⟨rfl, -⟩ | ⟨rfl, -, -⟩ := regRead_cases hread <;> rfl

/-- The accumulators of the checksum engine. -/
def engine (s : State) : Byte × Byte := (s.s1, s.s2)

/-- Of the commands only `CS.CLR` does anything to the engine but fold the byte of a `CS.BYTE` (40_checksum.md R80). -/
theorem exec_engine {i : Instr} {s t : State} (h : exec i s = .next t) (hclr : i ≠ .csClr) :
    engine t = foldAll (engine s) (csByteOf (commandWrite i)).toList := by
  obtain ⟨rfl, -⟩ | ⟨b, rfl, rfl⟩ | ⟨n, rfl, rfl⟩ := exec_cases h
  · exact absurd rfl hclr
  · rw [csByteOf_eq_some_iff.2 rfl]
    rfl
  · rw [csByteOf_eq_none fun b hb => by simpa using encode_injective (Input.regWrite.inj hb).2]
    exact Prod.ext (runBatch_s1 _ _) (runBatch_s2 _ _)

/-- Of all inputs only `CS.CLR` and an assertion of RST do anything to the engine but fold the byte of a `CS.BYTE`. -/
theorem perform_engine {x : Input} {s t : State} (h : perform x s = .next t) (hrst : x ≠ .rst true)
    (hclr : x ≠ commandWrite .csClr) : engine t = foldAll (engine s) (csByteOf x).toList := by
  by_cases hcmd : ∃ i, x = commandWrite i
  · obtain ⟨i, rfl⟩ := hcmd
    exact exec_engine ((perform_commandWrite i s).symm.trans h) (mt (congrArg commandWrite) hclr)
  · obtain ⟨-, -, -, h1, h2, -, -⟩ := perform_sameButErr h hrst fun v i hx hd =>
      hcmd ⟨i, by rw [hx, commandWrite, encode_of_decode hd]⟩
    rw [csByteOf_eq_none fun b hb => hcmd ⟨_, hb⟩]
    exact Prod.ext h1 h2

/-- No `CS.CLR` and no reset is to come, and the bytes still to come take the engine to these accumulators. -/
def streamsTo (acc : Byte × Byte) (s : State) : Prop :=
  (∀ x ∈ s.pending, x ≠ .rst true ∧ x ≠ commandWrite .csClr) ∧
    foldAll (engine s) (s.pending.filterMap csByteOf) = acc

/-- Every step keeps where the stream ends: what it takes off the bytes to come it has folded (40_checksum.md R80). -/
theorem step_streamsTo {acc : Byte × Byte} (s t : State) (hs : streamsTo acc s) (h : step s = .next t) :
    streamsTo acc t := by
  obtain ⟨hins, hacc⟩ := hs
  obtain ⟨bt, -, -, hgo⟩ | ⟨-, x, rest, hnext, hinput⟩ | ⟨-, -, hidle⟩ := step_cases s
  · cases h.symm.trans hgo
    simpa [streamsTo, engine] using ⟨hins, hacc⟩
  · have hperform := hinput.symm.trans h
    have hpending : t.pending = rest := perform_pending hperform
    obtain ⟨us, vs, hp, hrest, -⟩ := nextInput_split hnext
    obtain ⟨hrst, hclr⟩ := hins x (by simp [hp])
    have hfold := perform_engine hperform hrst hclr
    refine ⟨fun y hy => hins y ?_, ?_⟩
    · rw [hpending, hrest, List.mem_append] at hy
      rw [hp, List.mem_append]
      exact hy.imp_right (List.mem_cons_of_mem x)
    · rw [← hacc, nextInput_csBytes hnext, foldAll_append, hpending, hfold]
      rfl
  · cases h.symm.trans hidle
    exact ⟨hins, hacc⟩

/-! ### The obligations -/

/-- Settles O12: a fold ends in 0..254, so a checksum is one of 255 × 255 byte pairs, and the frame checksum of a batch
never equals an `EXPCS` with a byte 0xFF. -/
theorem noChecksumByteIsFF : Obligations.NoChecksumByteIsFF := by
  refine ⟨fun xs => ?_, ?_, fun n s t h1 h2 hexec hend hstatus hff => ?_⟩
  · obtain ⟨h1, h2⟩ := foldAll_zero_le xs
    rw [checksum_eq_packBytes, packBytes_toNat]
    omega
  · calc (Set.range checksum).ncard
        ≤ (Function.uncurry packBytes '' checksumBytes).ncard := Set.ncard_le_ncard range_checksum_subset
      _ ≤ checksumBytes.ncard := Set.ncard_image_le
      _ = 65025 := ncard_checksumBytes
  · obtain rfl := Host.Outcome.next.inj hexec
    refine hstatus.resolve_left fun hverified => ?_
    obtain ⟨hhigh, hlow⟩ := expcs_bytes_ne_ff (runBatch_sumsInRange ⟨h1, h2⟩) (runBatch_verified hend hverified)
    exact hff.elim hhigh hlow

/-- Settles O14: after the step of `CS.CLR` the stream leads from (0, 0) to the accumulators of the whole byte sequence,
every step keeps that, and with no input left the engine is there. -/
theorem streamedChecksumIsTheFunction : Obligations.StreamedChecksumIsTheFunction := by
  intro k s t ins hidle hp hins hrun hdone
  cases k with
  | zero => cases hrun; cases hp.symm.trans hdone
  | succ k =>
    obtain ⟨u, hu, hrest⟩ := core_run_succ hrun
    have hclr := (step_open hidle hp).symm.trans hu
    obtain rfl := Host.Outcome.next.inj ((perform_commandWrite .csClr _).symm.trans hclr)
    have hstart : streamsTo (foldAll (0, 0) (ins.filterMap csByteOf)) { s with pending := ins, s1 := 0, s2 := 0 } :=
      ⟨hins, rfl⟩
    obtain ⟨-, hacc⟩ := core_run_keeps step_streamsTo k _ t hstart hrest
    rw [hdone] at hacc
    rw [checksum_eq_packBytes, ← hacc]
    rfl

/-- Settles O8: `CS.CLR` by its definition; the other words of its opcode are illegal. -/
theorem csClrClearsTheEngine : Obligations.CsClrClearsTheEngine :=
  ⟨fun _ => rfl, fun _ => packBytes_zero, rfl, fun _ s hop hw => execute_of_illegal (illegal_of_opField_csClr hop hw) s⟩

/-- Settles O9: `CS.BYTE` is one step of the fold; the words of its opcode with a field not 0 are illegal. -/
theorem csByteFoldsOneByte : Obligations.CsByteFoldsOneByte :=
  ⟨fun _ _ => rfl, fun _ => rfl, fun _ s hop hw => execute_of_illegal (illegal_of_opField_csByte hop hw) s⟩

/-- Settles O13: 255 is 0 mod 255 in the fold, and a fold of 0x00 leaves the start as it is. -/
theorem byteFFFoldsLikeByte00 : Obligations.ByteFFFoldsLikeByte00 := by
  have fold_zero : fold (0, 0) 0x00 = (0, 0) := by decide
  refine ⟨fold_ff, fold_zero, fun xs ys => checksum_congr ?_, fun xs => checksum_congr ?_⟩
  · rw [foldAll_append, foldAll_append, foldAll_cons, foldAll_cons, fold_ff]
  · rw [foldAll_cons, foldAll_cons, fold_zero, fold_ff, fold_zero]

end Sys2Proof.Machine

/-! SUPPORT and the statements of 41_frame_parser.md about one byte, the empty batch, the bytes a completed frame leaves in
`Q`, and the independence of the two units. -/

namespace Sys2Proof.Machine

/-! ### One byte by the window the cursor stands in -/

/-- The arm of 41_frame_parser.md R82 for the byte of a window. -/
def windowByte : Window → Params → Frame → Byte → ByteResult
  | .header => headerByte
  | .cmd => cmdByte
  | .lenHi => lenHiByte
  | .lenLo => lenLoByte
  | .csHi => csHiByte
  | .csLo => csLoByte
  | .payload => payloadByte
  | .tail => tailByte

theorem stepByte_of_standsIn {p : Params} {f : Frame} (w : Window) (h : standsIn p f.cursor.toNat f.len w) (b : Byte) :
    stepByte p f b = windowByte w p f b := by
  have hw : frameWindow p f = w := windowAt_eq_iff_standsIn.2 h
  simp only [stepByte, hw]
  cases w <;> rfl

section literal
variable {p : Params} {f : Frame} {b : Byte}

theorem headerByte_match (h : p.hdr[f.cursor.toNat]? = some b) :
    headerByte p f b = ⟨{ f with cursor := f.cursor + 1 }, .accepted⟩ := if_pos h

theorem headerByte_mismatch (h : p.hdr[f.cursor.toNat]? ≠ some b) : headerByte p f b = mismatch f := if_neg h

theorem tailIndex_eq {t : Nat} (h : f.cursor.toNat = p.H + 5 + f.len.toNat + t) : tailIndex p f = t := by
  rw [tailIndex, h, Nat.add_sub_cancel_left]

theorem tailByte_mismatch (h : p.tail[tailIndex p f]? ≠ some b) : tailByte p f b = mismatch f := if_pos h

theorem tailByte_match (h : p.tail[tailIndex p f]? = some b) (hmore : tailIndex p f + 1 < p.T) :
    tailByte p f b = ⟨{ f with cursor := f.cursor + 1 }, .accepted⟩ := by
  rw [tailByte, if_neg (not_not.2 h), if_neg (by omega)]

theorem tailByte_last (h : p.tail[tailIndex p f]? = some b) (hlast : tailIndex p f + 1 = p.T) :
    tailByte p f b = finalTail f := by
  rw [tailByte, if_neg (not_not.2 h), if_pos (by omega)]

end literal

/-- The first byte of a big-endian pair as a value (41_frame_parser.md R85, R87). -/
theorem highByte_eq_ofNat (b : Byte) : highByte b = BitVec.ofNat 16 (256 * b.toNat) := by
  rw [← highByte_toNat, BitVec.ofNat_toNat, BitVec.setWidth_eq]

/-- The second byte of a big-endian pair as a value (41_frame_parser.md R86, R88). -/
theorem lowByte_eq_ofNat (v : Half) (b : Byte) : lowByte v b = BitVec.ofNat 16 (256 * (v.toNat / 256) + b.toNat) := by
  rw [← lowByte_toNat, BitVec.ofNat_toNat, BitVec.setWidth_eq]

theorem frameChecksum_eq_iff (f : Frame) (v : Half) :
    frameChecksum f = v ↔ 256 * f.fs1.toNat + f.fs2.toNat = v.toNat := by
  rw [← BitVec.toNat_inj, frameChecksum, packBytes_toNat]

/-! ### A batch by what its first byte does -/

section firstByte
variable {s : State} {b : Byte} {q : List Byte}

/-- A batch of one byte that is accepted ends UNFINISHED (41_frame_parser.md R94). -/
theorem exec_fpBatch_one_accepted (hq : s.q = b :: q) {f : Frame}
    (h : stepByte s.params s.frame b = ⟨f, .accepted⟩) :
    exec (.fpBatch 1) s = .next { s with frame := f, q := q, batch := none, bcnt := 1, status := 0 } := by
  have hrun := runBatch_one hq
  rw [h] at hrun
  exact congrArg _ hrun

/-- A batch of one byte that mismatches ends RESET (41_frame_parser.md R92, R94). -/
theorem exec_fpBatch_one_mismatch (hq : s.q = b :: q) (h : stepByte s.params s.frame b = mismatch s.frame) :
    exec (.fpBatch 1) s = .next
      { s with frame := { s.frame with cursor := 0 }, q := q, batch := none, bcnt := 1, status := 1 } := by
  have hrun := runBatch_one hq
  rw [h] at hrun
  exact congrArg _ hrun

/-- A batch whose first byte completes the frame ends after it, whatever its count (41_frame_parser.md R91, R97). -/
theorem exec_fpBatch_frameDone (hq : s.q = b :: q) (h : stepByte s.params s.frame b = finalTail s.frame)
    {n : Half} (hn : n ≠ 0) :
    exec (.fpBatch n) s = .next
      { s with
        frame := { s.frame with cursor := 0 }
        q := q, batch := none, bcnt := 1
        status := if frameChecksum s.frame = s.frame.expcs then 3 else 4 } := by
  have hstart : batchRunning ⟨n, 0, false, false⟩ = true :=
    (batchRunning_iff _).2 ⟨BitVec.toNat_pos_of_ne_zero hn, rfl⟩
  have hstop : batchRunning ⟨n, 1, true, false⟩ = false := Bool.and_false _
  have hloop : batchLoop s.params s.q s.frame ⟨n, 0, false, false⟩ =
      ⟨q, { s.frame with cursor := 0 }, ⟨n, 1, true, false⟩⟩ := by
    rw [hq, batchLoop_cons_running hstart, h]
    exact batchLoop_stopped hstop _ _
  simp only [exec, execFpBatch, runBatch, hloop, hstop]
  rfl

end firstByte

/-! ### What the loop leaves when it has completed a frame -/

/-- Only the final tail byte completes a frame, and it returns the cursor to 0 (41_frame_parser.md R91). -/
theorem stepByte_frameDone {p : Params} {f : Frame} {b : Byte} (h : (stepByte p f b).event = .frameDone) :
    (stepByte p f b).frame.cursor = 0 := by
  obtain ⟨hs, -⟩ | ⟨hs, -⟩ | ⟨hs, -⟩ | ⟨hs, -⟩ | ⟨hs, -⟩ | ⟨hs, -⟩ | ⟨hs, -⟩ | ⟨hs, -⟩ | ⟨hs, -⟩ | ⟨hs, -⟩ :=
    stepByte_cases p f b <;> rw [hs] at h ⊢
  any_goals cases h
  rfl

/-- The loop stops at the byte that completes the frame, so the cursor is still 0 (41_frame_parser.md R91, R97). -/
theorem batchLoop_cursor_of_done {p : Params} {q : List Byte} {f : Frame} {bt : Batch} (hbt : bt.done = false)
    (h : (batchLoop p q f bt).batch.done = true) : (batchLoop p q f bt).frame.cursor = 0 := by
  refine batchLoop_keeps (P := fun f bt => bt.done = true → f.cursor = 0) (fun g bt' b _ hr hdone => ?_) q f bt
    (fun hd => absurd (hbt.symm.trans hd) Bool.false_ne_true) h
  have hnot := ((batchRunning_iff bt').1 hr).2
  rw [batchAfter_done, hnot, Bool.false_or, decide_eq_true_iff] at hdone
  exact stepByte_frameDone hdone

section ended
variable {bt : Batch} {s : State} (hend : (runBatch bt s).batch = none)
include hend

/-- The end-of-batch writes as the loop's result gives them (41_frame_parser.md R81, R94, R95). -/
theorem runBatch_writes_of_ended :
    batchRunning (batchLoop s.params s.q s.frame bt).batch = false ∧
    (runBatch bt s).status = endStatus (batchLoop s.params s.q s.frame bt).batch (runBatch bt s).frame ∧
    (runBatch bt s).bcnt = BitVec.ofNat 16 (batchLoop s.params s.q s.frame bt).batch.k := by
  obtain ⟨-, -, hwait, -⟩ | ⟨hstop, -, hstatus, hbcnt⟩ := runBatch_cases bt s
  · cases hwait.symm.trans hend
  · exact ⟨hstop, hstatus, hbcnt⟩

/-- A count of bytes taken never exceeds the batch count, so `BCNT` is that count. -/
theorem runBatch_bcnt_toNat_of_ended (hk : bt.k ≤ bt.n.toNat) :
    (runBatch bt s).bcnt.toNat = (batchLoop s.params s.q s.frame bt).batch.k := by
  obtain ⟨-, -, hbcnt⟩ := runBatch_writes_of_ended hend
  have hle := batchLoop_k_le (p := s.params) s.q s.frame bt hk
  rw [hbcnt, BitVec.toNat_ofNat]
  exact Nat.mod_eq_of_lt (hle.trans_lt bt.n.isLt)

/-- A batch that ended has taken the first bytes of `Q`, as many as `BCNT` says (20_memory.md R50). -/
theorem runBatch_q_of_ended (hk : bt.k = 0) : (runBatch bt s).q = s.q.drop (runBatch bt s).bcnt.toNat := by
  obtain ⟨j, -, hj, hdrop⟩ := batchLoop_takes (p := s.params) s.q s.frame bt
  rw [runBatch_q, hdrop, runBatch_bcnt_toNat_of_ended hend (by omega), hj, hk, Nat.zero_add]

/-- A batch that ended below its count has completed a frame (41_frame_parser.md R95). -/
theorem batchLoop_done_of_bcnt_lt (hk : bt.k ≤ bt.n.toNat) (hlt : (runBatch bt s).bcnt.toNat < bt.n.toNat) :
    (batchLoop s.params s.q s.frame bt).batch.done = true := by
  obtain ⟨hstop, -, -⟩ := runBatch_writes_of_ended hend
  rw [runBatch_bcnt_toNat_of_ended hend hk] at hlt
  by_contra hdone
  have hrun := (batchRunning_iff (batchLoop s.params s.q s.frame bt).batch).2
    ⟨by rwa [batchLoop_n], Bool.eq_false_of_not_eq_true hdone⟩
  cases hrun.symm.trans hstop

/-- A batch that completed a frame ends with the checksum verdict (41_frame_parser.md R94). -/
theorem runBatch_status_of_done (hdone : (batchLoop s.params s.q s.frame bt).batch.done = true) :
    (runBatch bt s).status = statusVerified ∨ (runBatch bt s).status = statusChecksumError := by
  obtain ⟨-, hstatus, -⟩ := runBatch_writes_of_ended hend
  rw [hstatus]
  exact (endStatus_completed _ _).2 hdone

end ended

/-! ### The two units -/

/-- A batch carries `S1` and `S2` along unread (41_frame_parser.md R107). -/
theorem runBatch_withEngine (bt : Batch) (s : State) (a b : Byte) :
    runBatch bt { s with s1 := a, s2 := b } = { runBatch bt s with s1 := a, s2 := b } := by
  simp only [runBatch]
  split <;> rfl

/-! ### The obligations -/

/-- Settles O16: a batch carries `S1`, `S2` along unread, and the two commands of the CS unit are functions of them alone. -/
theorem theTwoUnitsAreIndependent : Obligations.TheTwoUnitsAreIndependent := by
  refine ⟨fun n s t a b h => ?_, fun i s t f st c q hi h => ?_⟩
  · obtain rfl := Host.Outcome.next.inj h
    exact ⟨runBatch_s1 _ s, runBatch_s2 _ s, congrArg _ (runBatch_withEngine _ s a b)⟩
  · obtain rfl | ⟨b, rfl⟩ := hi
    all_goals
      obtain rfl := Host.Outcome.next.inj h
      exact ⟨rfl, rfl, rfl, rfl, rfl⟩

/-- Settles O21: the arm of the payload window writes `PB` at one slot, and a write is read back there and nowhere else. -/
theorem payloadByteIsStoredAndFolded : Obligations.PayloadByteIsStoredAndFolded := by
  intro s b q hq hlo hhi
  have harm := stepByte_of_standsIn .payload ⟨hlo, hhi⟩ b
  exact ⟨_, exec_fpBatch_one_accepted hq harm, Memory.read?_write_same _ _ _,
    fun j hj => Memory.read?_write_other _ _ hj⟩

/-- Settles O22: the three answers of the arm of the tail window, and the batch that each of them ends. -/
theorem tailByteAdvancesCompletesOrResets : Obligations.TailByteAdvancesCompletesOrResets := by
  intro s b q t hq _ hcursor
  have harm := stepByte_of_standsIn .tail (p := s.params) (f := s.frame)
    (show s.params.H + 5 + s.frame.len.toNat ≤ s.frame.cursor.toNat by omega) b
  obtain rfl := tailIndex_eq hcursor
  refine ⟨fun hb => ?_, fun hb hmore => ?_, fun hb hlast n hn => ?_⟩
  · exact exec_fpBatch_one_mismatch hq (harm.trans (tailByte_mismatch hb))
  · exact exec_fpBatch_one_accepted hq (harm.trans (tailByte_match hb hmore))
  · rw [exec_fpBatch_frameDone hq (harm.trans (tailByte_last hb hlast)) hn]
    simp only [frameChecksum_eq_iff]

/-- Settles O28: a batch that ended below its count has completed a frame, and the loop stopped there. -/
theorem leftoverBytesStayInTheQueue : Obligations.LeftoverBytesStayInTheQueue := by
  intro n s t h hend hlt
  obtain rfl := Host.Outcome.next.inj h
  have hdone := batchLoop_done_of_bcnt_lt hend (Nat.zero_le _) hlt
  exact ⟨runBatch_status_of_done hend hdone,
    (congrArg Frame.cursor (runBatch_frame _ s)).trans (batchLoop_cursor_of_done rfl hdone),
    runBatch_q_of_ended hend rfl⟩

/-- Settles O17: the two answers of the arm of the header window. -/
theorem headerByteMatchesOrResets : Obligations.HeaderByteMatchesOrResets := by
  intro s b q hq hcursor
  have harm := stepByte_of_standsIn .header hcursor b
  exact ⟨fun hb => exec_fpBatch_one_accepted hq (harm.trans (headerByte_match hb)),
    fun hb => exec_fpBatch_one_mismatch hq (harm.trans (headerByte_mismatch hb))⟩

/-- Settles O18: the arm of the command window accepts every byte. -/
theorem commandByteIsStoredVerbatim : Obligations.CommandByteIsStoredVerbatim :=
  fun _ b _ hq hcursor => exec_fpBatch_one_accepted hq (stepByte_of_standsIn .cmd hcursor b)

/-- Settles O19: the arms of the two length windows, their byte pairs as values. -/
theorem lengthBytesAreBigEndian : Obligations.LengthBytesAreBigEndian := by
  intro s b q hq
  rw [← highByte_eq_ofNat, ← lowByte_eq_ofNat]
  exact ⟨fun hcursor => exec_fpBatch_one_accepted hq (stepByte_of_standsIn .lenHi hcursor b),
    fun hcursor => exec_fpBatch_one_accepted hq (stepByte_of_standsIn .lenLo hcursor b)⟩

/-- Settles O20: the arms of the two checksum windows, their byte pairs as values, and the place `H + 5` of the cursor. -/
theorem checksumBytesAreBigEndian : Obligations.ChecksumBytesAreBigEndian := by
  intro s b q hq
  rw [← highByte_eq_ofNat, ← lowByte_eq_ofNat]
  refine ⟨fun hcursor => exec_fpBatch_one_accepted hq (stepByte_of_standsIn .csHi hcursor b),
    fun hcursor => exec_fpBatch_one_accepted hq (stepByte_of_standsIn .csLo hcursor b), fun hp => ?_⟩
  obtain ⟨⟨-, hH⟩, -, -⟩ := hp
  have hcursor : (BitVec.ofNat 32 (s.params.H + 5)).toNat = s.params.H + 5 := by
    rw [BitVec.toNat_ofNat]
    omega
  rw [frameWindow, hcursor]
  split_ifs with hlen
  · exact windowAt_tail (by rw [hlen]; exact le_rfl)
  · exact windowAt_payload le_rfl (Nat.lt_add_of_pos_right (BitVec.toNat_pos_of_ne_zero hlen))

/-- Settles O24: a batch of no bytes is its end-of-batch writes. -/
theorem emptyBatchIsUnfinished : Obligations.EmptyBatchIsUnfinished := by
  intro s hbatch
  have hzero := runBatch_zero s
  rw [← hbatch] at hzero
  exact congrArg _ hzero

end Sys2Proof.Machine

/-! SUPPORT and the statement of 70_reset_and_hazards.md about a reset during a wait. -/

namespace Sys2Proof.Machine

/-- A step of a batch that waits on an empty `Q`: a byte's arrival or a change of RST, or nothing (20_memory.md R49;
41_frame_parser.md R93). -/
theorem step_waiting_cases {s t : State} {bt : Batch} (hb : s.batch = some bt) (hq : s.q = [])
    (h : step s = .next t) :
    (∃ b rest, nextInput s = some (.byte b, rest) ∧ t.batch = some bt ∧ t.q = [b]) ∨
    (∃ rest, nextInput s = some (.rst true, rest) ∧ t.batch = none ∧ t.q = []) ∨
    (t.batch = some bt ∧ t.q = []) := by
  have hblk : portBlocked s = true := by simp [portBlocked, hb]
  obtain ⟨b, rest, hn, rfl, -⟩ | ⟨rest, hn, rfl, -⟩ | ⟨rest, -, rfl, -⟩ | ⟨-, rfl⟩ :=
    step_blocked_cases hblk (.inr hq) h
  · exact .inl ⟨b, rest, hn, hb, by simp [hq]⟩
  · exact .inr (.inl ⟨rest, hn, rfl, hq⟩)
  · exact .inr (.inr ⟨hb, hq⟩)
  · exact .inr (.inr ⟨hb, hq⟩)

/-- Settles O48: the block reset drops the batch and leaves the empty `Q` alone, and the other steps of a wait keep the
batch; only a byte's arrival fills `Q`. -/
theorem resetEndsAWaitingBatch : Obligations.ResetEndsAWaitingBatch := by
  refine fun s bt hb hq => ⟨fun rest hn => ?_, fun t h hend => ?_, fun t h hbyte => ?_⟩
  · exact ⟨_, step_rst (.inr hq) hn, rfl, hq, rfl, rfl, rfl, rfl⟩
  · obtain ⟨-, -, -, hkept, -⟩ | ⟨rest, hn, -, -⟩ | ⟨hkept, -⟩ := step_waiting_cases hb hq h
    · exact absurd hkept hend
    · exact ⟨rest, hn⟩
    · exact absurd hkept hend
  · obtain ⟨b, rest, hn, -, -⟩ | ⟨-, -, -, hempty⟩ | ⟨-, hempty⟩ := step_waiting_cases hb hq h
    · exact ⟨b, rest, hn⟩
    · exact absurd hempty hbyte
    · exact absurd hempty hbyte

end Sys2Proof.Machine

/-! SUPPORT and the statements of 30_encoding.md about single command words, wire frames and assembler lines. -/

namespace Sys2Proof

/-! ### The host's reading of a command word -/

theorem tableWord_toNat (w : Word) : tableWord 32 w.toNat = w := by
  rw [tableWord, Nat.mod_eq_of_lt w.isLt, BitVec.ofNat_toNat, BitVec.setWidth_eq]

theorem decodeTableWord_toNat (w : Word) : decodeTableWord 32 w.toNat = (decode w).toOption := by
  rw [decodeTableWord, if_pos (Nat.mod_lt _ (by decide)), tableWord_toNat]

end Sys2Proof

namespace Sys2Proof.Machine

/-! ### The parts of a wire frame -/

/-- The five bytes between header and payload: command, length and expected checksum (30_encoding.md R66). -/
def fieldBytes (cmd : Byte) (len expcs : Half) : List Byte :=
  [cmd, len.extractLsb' 8 8, len.extractLsb' 0 8, expcs.extractLsb' 8 8, expcs.extractLsb' 0 8]

theorem wireFrame_eq (p : Params) (cmd : Byte) (expcs : Half) (xs : List Byte) :
    wireFrame p cmd expcs xs =
      p.hdr ++ (fieldBytes cmd (BitVec.ofNat 16 xs.length) expcs ++ (xs ++ p.tail)) := by
  simp [wireFrame, fieldBytes]

theorem length_wireFrame (p : Params) (cmd : Byte) (expcs : Half) (xs : List Byte) :
    (wireFrame p cmd expcs xs).length = p.H + 5 + xs.length + p.T := by
  simp only [wireFrame_eq, fieldBytes, List.length_append, List.length_cons, List.length_nil, Params.H, Params.T]
  omega

theorem high_eq_ofNat (v : Half) : v.extractLsb' 8 8 = BitVec.ofNat 8 (v.toNat / 256) := by
  apply BitVec.eq_of_toNat_eq
  rw [BitVec.extractLsb'_toNat, BitVec.toNat_ofNat, Nat.shiftRight_eq_div_pow]

theorem low_eq_ofNat (v : Half) : v.extractLsb' 0 8 = BitVec.ofNat 8 (v.toNat % 256) := by
  apply BitVec.eq_of_toNat_eq
  rw [BitVec.extractLsb'_toNat, BitVec.toNat_ofNat, Nat.shiftRight_zero, Nat.mod_mod]

section wireFrame
variable {p : Params} {cmd : Byte} {expcs : Half} {xs : List Byte}

theorem getElem?_wireFrame_header {o : Nat} (h : o < p.H) : (wireFrame p cmd expcs xs)[o]? = p.hdr[o]? := by
  rw [wireFrame_eq, List.getElem?_append_left h]

theorem getElem?_wireFrame_field {j : Nat} (h : j < 5) :
    (wireFrame p cmd expcs xs)[p.H + j]? = (fieldBytes cmd (BitVec.ofNat 16 xs.length) expcs)[j]? := by
  rw [wireFrame_eq, List.getElem?_append_right (Nat.le_add_right _ _), Nat.add_sub_cancel_left,
    List.getElem?_append_left h]

theorem getElem?_wireFrame_after (j : Nat) :
    (wireFrame p cmd expcs xs)[p.H + 5 + j]? = (xs ++ p.tail)[j]? := by
  rw [wireFrame_eq, Nat.add_assoc, List.getElem?_append_right (Nat.le_add_right _ _), Nat.add_sub_cancel_left,
    List.getElem?_append_right (show (fieldBytes _ _ _).length ≤ 5 + j from Nat.le_add_right 5 j)]
  exact congrArg _ (Nat.add_sub_cancel_left 5 j)

end wireFrame

/-! ### Assembler lines -/

theorem assembleLine_of_wf {l : Line} (h : l.wf = true) : assembleLine l = some (lineInputs l) := if_pos h

theorem assembleLine_of_not_wf {l : Line} (h : ¬l.wf = true) : assembleLine l = none := if_neg h

/-- The word `FP.BATCH` with a count of an assembler line (30_encoding.md R57, R62). -/
theorem commandWrite_fpBatch {n : Nat} (hn : n ≤ 65535) :
    commandWrite (.fpBatch (BitVec.ofNat 16 n)) = .regWrite 0 (0x03000000 ||| BitVec.ofNat 32 n) := by
  have h : (BitVec.ofNat 16 n).setWidth 32 = BitVec.ofNat 32 n := by
    apply BitVec.eq_of_toNat_eq
    simp only [BitVec.toNat_setWidth, BitVec.toNat_ofNat]
    omega
  simp only [commandWrite, encode, h]

/-- A byte list with a byte out of range is out of range. -/
theorem not_bytes_wf {bs : List Nat} (h : ∃ b ∈ bs, 255 < b) : ¬bs.all (fun b => decide (b ≤ 255)) = true := by
  obtain ⟨b, hb, hlt⟩ := h
  exact fun hall => absurd (of_decide_eq_true (List.all_eq_true.1 hall b hb)) (by omega)

/-- Every register name stands for an index that names the register (20_memory.md R38). -/
theorem regAt_regIndex {p : Params} {r : Reg} (hC : p.C ≤ 65536) (hr : ∀ i, r = .pb i → i < p.C) :
    regAt p (BitVec.ofNat 32 (regIndex r)) = some r := by
  cases r with
  | pb i => exact regAt_pb hC (hr i rfl)
  | _ => rfl

/-! ### The obligations -/

/-- Settles O1: the decoder answers the encoded command, and the host's reading of 32 bits is the decoder's. -/
theorem decodeOfEncodeIsTheCommand : Obligations.DecodeOfEncodeIsTheCommand := fun i =>
  ⟨decode_encode i, by rw [decodeTableWord_toNat, decode_encode]; rfl⟩

/-- Settles O2: a word that matches a row is the encoding of what its fields say. -/
theorem encodeOfDecodeIsTheWord : Obligations.EncodeOfDecodeIsTheWord := fun _ _ => encode_of_decode

/-- Settles O5: each word's row, or its class of 30_encoding.md R59, by evaluation. -/
theorem writtenOutWordsDecode : Obligations.WrittenOutWordsDecode :=
  ⟨rfl, rfl, rfl, rfl, rfl, rfl, rfl, rfl, rfl, rfl⟩

/-- Settles O6: the frame is header, five field bytes, payload and tail, one after another. -/
theorem wireFrameBytesStandAtTheirOffsets : Obligations.WireFrameBytesStandAtTheirOffsets := by
  intro p cmd expcs xs hxs
  have hlen : (BitVec.ofNat 16 xs.length).toNat = xs.length := by
    rw [BitVec.toNat_ofNat]
    exact Nat.mod_eq_of_lt (by omega)
  have field : ∀ j < 5, (wireFrame p cmd expcs xs)[p.H + j]? =
      [cmd, BitVec.ofNat 8 (xs.length / 256), BitVec.ofNat 8 (xs.length % 256),
        BitVec.ofNat 8 (expcs.toNat / 256), BitVec.ofNat 8 (expcs.toNat % 256)][j]? := fun j hj => by
    rw [getElem?_wireFrame_field hj, fieldBytes, high_eq_ofNat, low_eq_ofNat, high_eq_ofNat, low_eq_ofNat, hlen]
  refine ⟨length_wireFrame p cmd expcs xs, fun o ho => getElem?_wireFrame_header ho, field 0 (by decide),
    field 1 (by decide), field 2 (by decide), field 3 (by decide), field 4 (by decide), fun o hlo hhi => ?_,
    fun o hlo hhi => ?_⟩
  · obtain ⟨j, rfl⟩ := Nat.exists_eq_add_of_le hlo
    rw [getElem?_wireFrame_after, Nat.add_sub_cancel_left, List.getElem?_append_left (by omega)]
  · obtain ⟨j, rfl⟩ := Nat.exists_eq_add_of_le hlo
    rw [Nat.add_sub_cancel_left, Nat.add_assoc, getElem?_wireFrame_after,
      List.getElem?_append_right (Nat.le_add_right _ _), Nat.add_sub_cancel_left]

/-- Settles O7: a line assembles exactly where its immediates are in range, and each command's word is its opcode with
the operand. -/
theorem assemblerLinesAreTheirTransactions : Obligations.AssemblerLinesAreTheirTransactions := by
  refine ⟨rfl, fun n hn => ?_, fun n hn => ?_, fun n hn => ?_, fun n hn => ?_, fun idx hidx => ?_,
    fun idx v hidx hv => ?_, fun idx hidx => ?_, fun idx v h => ?_, fun bs hbs => ⟨?_, ?_⟩, fun bs hbs => ?_,
    fun p r => regAt_regIndex⟩
  · rw [assembleLine_of_wf (l := .csByte n) (decide_eq_true hn), lineInputs, commandWrite_csByte hn]
  · exact assembleLine_of_not_wf fun h => absurd (of_decide_eq_true h) (by omega)
  · rw [assembleLine_of_wf (l := .fpBatch n) (decide_eq_true hn), lineInputs, commandWrite_fpBatch hn]
  · exact assembleLine_of_not_wf fun h => absurd (of_decide_eq_true h) (by omega)
  · exact assembleLine_of_wf (decide_eq_true hidx)
  · exact assembleLine_of_wf (Bool.and_eq_true_iff.2 ⟨decide_eq_true hidx, decide_eq_true hv⟩)
  · exact assembleLine_of_not_wf fun h => absurd (of_decide_eq_true h) (by omega)
  · refine assembleLine_of_not_wf fun hwf => ?_
    obtain ⟨hidx, hv⟩ := Bool.and_eq_true_iff.1 hwf
    have := of_decide_eq_true hidx
    have := of_decide_eq_true hv
    omega
  · exact assembleLine_of_not_wf (not_bytes_wf hbs)
  · exact assembleLine_of_not_wf (not_bytes_wf hbs)
  · exact assembleLine_of_wf (by simpa [Line.wf] using hbs)

end Sys2Proof.Machine

/-! SUPPORT and the statements of 40_checksum.md about the checksum as a function of its bytes. -/

namespace Sys2Proof.Machine

/-- The sum of the bytes of a sequence, as a number. -/
def byteSum (xs : List Byte) : Nat := (xs.map BitVec.toNat).sum

theorem byteSum_concat (xs : List Byte) (b : Byte) : byteSum (xs ++ [b]) = byteSum xs + b.toNat := by
  simp [byteSum]

/-- The running sums of a sequence, from the empty beginning on, added up. -/
def prefixSums (xs : List Byte) : Nat := (xs.inits.map byteSum).sum

theorem prefixSums_concat (xs : List Byte) (b : Byte) :
    prefixSums (xs ++ [b]) = prefixSums xs + byteSum (xs ++ [b]) := by
  simp [prefixSums, List.inits_append]

/-- The accumulators of 40_checksum.md R71 without the fold. -/
theorem foldAll_zero_toNat (xs : List Byte) :
    (foldAll (0, 0) xs).1.toNat = byteSum xs % 255 ∧ (foldAll (0, 0) xs).2.toNat = prefixSums xs % 255 := by
  induction xs using List.reverseRecOn with
  | nil => exact ⟨rfl, rfl⟩
  | append_singleton xs b ih =>
    obtain ⟨h1, h2⟩ := ih
    rw [foldAll_append, foldAll_cons, foldAll_nil, fold_fst_toNat, fold_snd_toNat, h1, h2, prefixSums_concat,
      byteSum_concat]
    omega

/-! ### The obligations -/

/-- Settles O10: the fold's two accumulators in closed form, by induction on the last byte. -/
theorem checksumIsTheSumAndThePrefixSums : Obligations.ChecksumIsTheSumAndThePrefixSums := by
  intro xs
  obtain ⟨h1, h2⟩ := foldAll_zero_toNat xs
  rw [checksum_eq_packBytes, packBytes_toNat, h1, h2]
  rfl

/-- Settles O11: the vectors of 95_test_vectors.md 2.1, by evaluation. -/
theorem checksumVectors : Obligations.ChecksumVectors := by
  unfold Obligations.ChecksumVectors
  decide

end Sys2Proof.Machine

/-! SUPPORT and the statements about what every step keeps: the parameters, the invariant, and the payload that `FCS`
covers (10_state.md, 41_frame_parser.md R98). -/

namespace Sys2Proof.Machine

/-! ### One byte keeps the frame's invariant -/

/-- The part of the invariant that speaks of the frame registers. -/
structure FrameInv (p : Params) (f : Frame) : Prop where
  params_legal : p.Legal
  cursor_in_frame : cursorInFrame p f
  sums_in_range : sumsInRange f
  pb_wf : f.pb.wf
  pb_within : ∀ c ∈ f.pb, c.1 < p.C

theorem toNat_cursor_succ {c : Word} (h : c.toNat + 1 < 2 ^ 32) : (c + 1).toNat = c.toNat + 1 := by
  rw [BitVec.toNat_add]
  exact Nat.mod_eq_of_lt h

theorem toNat_ofNat_cursor {c : Nat} (h : c < 2 ^ 32) : (BitVec.ofNat 32 c).toNat = c := by
  rw [BitVec.toNat_ofNat, Nat.mod_eq_of_lt h]

theorem cursorInFrame_lt {p : Params} {f : Frame} (hp : p.Legal) (hf : cursorInFrame p f) :
    f.cursor.toNat < p.H + 5 + 65535 + p.T ∧ f.cursor.toNat + 1 < 2 ^ 32 := by
  obtain ⟨⟨-, hH⟩, ⟨-, hT⟩, -⟩ := hp
  have hlen := f.len.isLt
  unfold cursorInFrame at hf
  omega

theorem cursorInFrame_of_cursor_zero (p : Params) {f : Frame} (h : f.cursor = 0) : cursorInFrame p f :=
  .inl (by rw [h]; exact Nat.zero_le _)

/-- The places between header and payload are inside the frame. -/
theorem cursorInFrame_fields {p : Params} (hp : p.Legal) {g : Frame} {j : Nat} (hj : j ≤ 5)
    (hg : g.cursor = BitVec.ofNat 32 (p.H + j)) : g.cursor.toNat = p.H + j ∧ cursorInFrame p g := by
  obtain ⟨⟨-, hH⟩, ⟨hT, -⟩, -⟩ := hp
  have hn : g.cursor.toNat = p.H + j := by
    rw [hg]
    exact toNat_ofNat_cursor (by omega)
  refine ⟨hn, ?_⟩
  unfold cursorInFrame
  omega

/-- One place further on is inside the frame, but after its last byte and between header and payload. -/
theorem cursorInFrame_succ {p : Params} {f g : Frame} (hg : g.cursor.toNat = f.cursor.toNat + 1) (hlen : g.len = f.len)
    (h : f.cursor.toNat < p.H ∨
      (p.H + 5 ≤ f.cursor.toNat ∧ f.cursor.toNat + 1 < p.H + 5 + f.len.toNat + p.T)) : cursorInFrame p g := by
  unfold cursorInFrame
  rw [hlen]
  omega

/-- A byte moves the cursor on by one, inside the frame, or back to 0 (10_state.md R18, R19). -/
theorem stepByte_cursor {p : Params} {f : Frame} (hp : p.Legal) (hf : cursorInFrame p f) (b : Byte) :
    ((stepByte p f b).event = .accepted ∧ (stepByte p f b).frame.cursor.toNat = f.cursor.toNat + 1 ∧
      cursorInFrame p (stepByte p f b).frame) ∨
    ((stepByte p f b).event ≠ .accepted ∧ (stepByte p f b).frame.cursor = 0) := by
  have hsucc := toNat_cursor_succ (cursorInFrame_lt hp hf).2
  have fields : ∀ (g : Frame) (j : Nat), j ≤ 4 → f.cursor.toNat = p.H + j →
      g.cursor = BitVec.ofNat 32 (p.H + (j + 1)) → g.cursor.toNat = f.cursor.toNat + 1 ∧ cursorInFrame p g :=
    fun g j hj hc hg => by
      obtain ⟨hn, hin⟩ := cursorInFrame_fields hp (Nat.succ_le_succ hj) hg
      exact ⟨hn.trans (by omega), hin⟩
  have hT := hp.2.1.1
  obtain ⟨h, -⟩ | ⟨h, hc, -⟩ | ⟨h, hc⟩ | ⟨h, hc⟩ | ⟨h, hc⟩ | ⟨h, hc⟩ | ⟨h, hc⟩ | ⟨h, hlo, hhi⟩ | ⟨h, hlo, ht, -⟩ |
    ⟨h, -⟩ := stepByte_cases p f b <;> rw [h]
  · exact .inr ⟨nofun, rfl⟩
  · exact .inl ⟨rfl, hsucc, cursorInFrame_succ hsucc rfl (.inl hc)⟩
  · exact .inl ⟨rfl, fields _ 0 (by decide) hc rfl⟩
  · exact .inl ⟨rfl, fields _ 1 (by decide) hc rfl⟩
  · exact .inl ⟨rfl, fields _ 2 (by decide) hc rfl⟩
  · exact .inl ⟨rfl, fields _ 3 (by decide) hc rfl⟩
  · exact .inl ⟨rfl, fields _ 4 (by decide) hc rfl⟩
  · exact .inl ⟨rfl, hsucc, cursorInFrame_succ hsucc rfl (.inr ⟨hlo, by omega⟩)⟩
  · unfold tailIndex at ht
    exact .inl ⟨rfl, hsucc, cursorInFrame_succ hsucc rfl (.inr ⟨by omega, by omega⟩)⟩
  · exact .inr ⟨nofun, rfl⟩

theorem stepByte_cursorInFrame {p : Params} {f : Frame} (hp : p.Legal) (hf : cursorInFrame p f) (b : Byte) :
    cursorInFrame p (stepByte p f b).frame := by
  obtain ⟨-, -, h⟩ | ⟨-, h⟩ := stepByte_cursor hp hf b
  · exact h
  · exact cursorInFrame_of_cursor_zero p h

/-- A byte leaves `PB` alone or writes one entry of it (41_frame_parser.md R89). -/
theorem stepByte_pb (p : Params) (f : Frame) (b : Byte) :
    (stepByte p f b).frame.pb = f.pb ∨
      (stepByte p f b).frame.pb = f.pb.write (payloadSlot p (payloadIndex p f)) b := by
  obtain ⟨h, -⟩ | ⟨h, -⟩ | ⟨h, -⟩ | ⟨h, -⟩ | ⟨h, -⟩ | ⟨h, -⟩ | ⟨h, -⟩ | ⟨h, -⟩ | ⟨h, -⟩ | ⟨h, -⟩ :=
    stepByte_cases p f b <;> rw [h]
  any_goals exact .inl rfl
  exact .inr rfl

theorem stepByte_frameInv {p : Params} {f : Frame} (h : FrameInv p f) (b : Byte) :
    FrameInv p (stepByte p f b).frame := by
  have hslot : payloadSlot p (payloadIndex p f) < p.C := Nat.mod_lt _ h.params_legal.2.2.1
  refine ⟨h.params_legal, stepByte_cursorInFrame h.params_legal h.cursor_in_frame b,
    stepByte_sumsInRange b h.sums_in_range, ?_, ?_⟩
  all_goals obtain hpb | hpb := stepByte_pb p f b <;> rw [hpb]
  · exact h.pb_wf
  · exact Memory.wf_write h.pb_wf _ _
  · exact h.pb_within
  · exact Memory.within_write h.pb_within hslot

theorem batchLoop_frameInv {p : Params} {f : Frame} (h : FrameInv p f) (q : List Byte) (bt : Batch) :
    FrameInv p (batchLoop p q f bt).frame :=
  batchLoop_keeps (P := fun f _ => FrameInv p f) (fun _ _ b hf _ => stepByte_frameInv hf b) q f bt h

/-! ### The payload that `FCS` covers -/

/-- `PB` begins with some `n` bytes whose fold is `(FS1, FS2)`. -/
def payloadTaken (f : Frame) (n : Nat) : Prop :=
  ∃ xs, xs.length = n ∧ payloadHeld f xs ∧ foldAll (0, 0) xs = (f.fs1, f.fs2)

theorem payloadTaken_zero {f : Frame} (h : f.fs1 = 0 ∧ f.fs2 = 0) : payloadTaken f 0 :=
  ⟨[], rfl, nofun, by rw [foldAll_nil, h.1, h.2]⟩

/-- A byte stored after those already held is held too, and folded (41_frame_parser.md R89). -/
theorem payloadTaken_write {f g : Frame} {n : Nat} {b : Byte} (h : payloadTaken f n)
    (hpb : g.pb = f.pb.write n b) (hsum : (g.fs1, g.fs2) = fold (f.fs1, f.fs2) b) : payloadTaken g (n + 1) := by
  obtain ⟨xs, rfl, hheld, hfold⟩ := h
  refine ⟨xs ++ [b], List.length_append, fun i x hx => ?_, ?_⟩
  · rw [hpb]
    by_cases hi : i = xs.length
    · subst hi
      rw [Memory.read?_write_same, ← hx, List.getElem?_concat_length]
    · have hlt := (List.getElem?_eq_some_iff.1 hx).1
      rw [List.length_append, List.length_singleton] at hlt
      rw [Memory.read?_write_other _ _ hi]
      exact hheld i x (by rwa [List.getElem?_append_left (by omega)] at hx)
  · rw [foldAll_append, hfold, hsum, foldAll_cons, foldAll_nil]

/-- Before the command byte nothing is claimed of `FCS`. -/
theorem frameSumCovers_of_header {p : Params} {f : Frame} (h : f.cursor.toNat ≤ p.H) : frameSumCovers p f :=
  ⟨fun h' _ => absurd h' (by omega), fun h' _ => absurd h' (by omega)⟩

theorem frameSumCovers_of_cursor_zero (p : Params) {f : Frame} (h : f.cursor = 0) : frameSumCovers p f :=
  frameSumCovers_of_header (by rw [h]; exact Nat.zero_le _)

/-- From the command byte to the first payload byte the accumulators are 0, which covers the empty payload. -/
theorem frameSumCovers_of_zero {p : Params} {f : Frame} (h : f.fs1 = 0 ∧ f.fs2 = 0) (hc : f.cursor.toNat ≤ p.H + 5) :
    frameSumCovers p f := by
  refine ⟨fun _ _ => h, fun _ _ => ?_⟩
  rw [Nat.sub_eq_zero_of_le hc, Nat.zero_min]
  exact payloadTaken_zero h

/-- Past the first payload byte: what the accumulators have to cover. -/
theorem frameSumCovers_of_payload {p : Params} {f : Frame} {n : Nat} (hc : p.H + 5 < f.cursor.toNat)
    (hn : min (f.cursor.toNat - (p.H + 5)) f.len.toNat = n) (h : f.len.toNat ≤ p.C → payloadTaken f n) :
    frameSumCovers p f := by
  subst hn
  exact ⟨fun _ h' => absurd h' (by omega), fun _ => h⟩

/-- Every byte keeps that `FCS` covers the payload taken (41_frame_parser.md R84, R89, R98). -/
theorem stepByte_frameSumCovers {p : Params} {f : Frame} (hp : p.Legal) (hf : cursorInFrame p f)
    (h : frameSumCovers p f) (b : Byte) : frameSumCovers p (stepByte p f b).frame := by
  obtain ⟨hzero, htaken⟩ := h
  obtain ⟨-, hcursor, -⟩ | ⟨-, hcursor⟩ := stepByte_cursor hp hf b
  case inr => exact frameSumCovers_of_cursor_zero p hcursor
  obtain ⟨h, -⟩ | ⟨h, hc, -⟩ | ⟨h, hc⟩ | ⟨h, hc⟩ | ⟨h, hc⟩ | ⟨h, hc⟩ | ⟨h, hc⟩ | ⟨h, hlo, hhi⟩ | ⟨h, hlo, ht, -⟩ |
    ⟨h, -⟩ := stepByte_cases p f b <;> rw [h] at hcursor ⊢
  · exact frameSumCovers_of_cursor_zero p rfl
  · exact frameSumCovers_of_header (by rw [hcursor]; exact hc)
  · exact frameSumCovers_of_zero ⟨rfl, rfl⟩ (by omega)
  · exact frameSumCovers_of_zero (hzero (by omega) (by omega)) (by omega)
  · exact frameSumCovers_of_zero (hzero (by omega) (by omega)) (by omega)
  · exact frameSumCovers_of_zero (hzero (by omega) (by omega)) (by omega)
  · exact frameSumCovers_of_zero (hzero (by omega) (by omega)) (by omega)
  · have hn : min (f.cursor.toNat + 1 - (p.H + 5)) f.len.toNat = f.cursor.toNat - (p.H + 5) + 1 := by omega
    refine frameSumCovers_of_payload (by omega) ((congrArg (fun c => min (c - _) _) hcursor).trans hn) fun hC => ?_
    have hbefore := htaken hlo hC
    rw [Nat.min_eq_left (by omega)] at hbefore
    have hslot : payloadSlot p (payloadIndex p f) = f.cursor.toNat - (p.H + 5) :=
      Nat.mod_eq_of_lt ((Nat.sub_lt_left_of_lt_add hlo hhi).trans_le hC)
    exact payloadTaken_write hbefore (congrArg (Memory.write f.pb · b) hslot) rfl
  · have hn : min (f.cursor.toNat + 1 - (p.H + 5)) f.len.toNat = f.len.toNat := by omega
    refine frameSumCovers_of_payload (by omega) ((congrArg (fun c => min (c - _) _) hcursor).trans hn) fun hC => ?_
    have hbefore := htaken (by omega) hC
    rwa [Nat.min_eq_right (by omega)] at hbefore
  · exact frameSumCovers_of_cursor_zero p rfl

/-- Where the final tail byte is accepted, `FCS` covers the whole payload (41_frame_parser.md R91, R98). -/
theorem stepByte_payloadTaken {p : Params} {f : Frame} {b : Byte} (h : frameSumCovers p f)
    (hdone : (stepByte p f b).event = .frameDone) (hC : (stepByte p f b).frame.len.toNat ≤ p.C) :
    payloadTaken (stepByte p f b).frame (stepByte p f b).frame.len.toNat := by
  obtain ⟨hs, -⟩ | ⟨hs, -⟩ | ⟨hs, -⟩ | ⟨hs, -⟩ | ⟨hs, -⟩ | ⟨hs, -⟩ | ⟨hs, -⟩ | ⟨hs, -⟩ | ⟨hs, -⟩ | ⟨hs, hlo, -⟩ :=
    stepByte_cases p f b <;> rw [hs] at hdone hC ⊢
  any_goals cases hdone
  have htaken := h.2 (by omega) hC
  rwa [Nat.min_eq_right (by omega)] at htaken

end Sys2Proof.Machine

/-! SUPPORT and the statements about every step: the parameters, the invariant, and that nothing stops the machine
(00_scope.md R8, 10_state.md, 60_exceptions.md R108). -/

namespace Sys2Proof.Machine

/-! ### What a step does to the parameters and the frame -/

/-- The frame of `t` is that of `s`, or the reset one, or the one a batch loop leaves; the parameters are the same. -/
def frameSteps (s t : State) : Prop :=
  t.params = s.params ∧
    (t.frame = s.frame ∨ t.frame = Frame.reset ∨ ∃ bt, t.frame = (batchLoop s.params s.q s.frame bt).frame)

theorem frameSteps.of_sameButErr {s t : State} (h : sameButErr s t) : frameSteps s t := by
  obtain ⟨hframe, -, -, -, -, -, hparams⟩ := h
  exact ⟨hparams, .inl hframe⟩

theorem runBatch_frameSteps (bt : Batch) (s : State) : frameSteps s (runBatch bt s) :=
  ⟨runBatch_params bt s, .inr (.inr ⟨bt, runBatch_frame bt s⟩)⟩

theorem exec_frameSteps {i : Instr} {s t : State} (h : exec i s = .next t) : frameSteps s t := by
  obtain ⟨-, rfl⟩ | ⟨b, -, rfl⟩ | ⟨n, -, rfl⟩ := exec_cases h
  · exact ⟨rfl, .inl rfl⟩
  · exact ⟨rfl, .inl rfl⟩
  · exact runBatch_frameSteps _ s

theorem perform_frameSteps {x : Input} {s t : State} (h : perform x s = .next t) : frameSteps s t := by
  obtain ⟨v, i, -, -, hexec⟩ | ⟨v, e, -, -, rfl⟩ | ⟨idx, v, -, -, rfl⟩ | ⟨idx, v, u, -, hread, rfl⟩ | ⟨b, -, rfl⟩ |
    ⟨-, rfl⟩ | ⟨-, rfl⟩ := perform_cases h
  · exact exec_frameSteps hexec
  · exact .of_sameButErr (sameButErr_raiseCmdError _ _)
  · exact .of_sameButErr (sameButErr_raiseCmdError _ _)
  · exact .of_sameButErr (sameButErr_reply_iff.2 (regRead_sameButErr hread))
  · exact .of_sameButErr (sameButErr_appendByte _ _)
  · exact ⟨rfl, .inr (.inl rfl)⟩
  · exact .of_sameButErr (sameButErr_releaseReset _)

theorem step_frameSteps {s t : State} (h : step s = .next t) : frameSteps s t := by
  obtain ⟨bt, -, -, hgo⟩ | ⟨-, x, rest, -, hinput⟩ | ⟨-, -, hidle⟩ := step_cases s
  · cases h.symm.trans hgo
    exact runBatch_frameSteps bt s
  · exact perform_frameSteps (s := { s with pending := rest }) (hinput.symm.trans h)
  · cases h.symm.trans hidle
    exact ⟨rfl, .inl rfl⟩

/-- What the reset frame has and every byte keeps, every step keeps. -/
theorem step_keeps_frame {P : Params → Frame → Prop} (hreset : ∀ p f, P p f → P p Frame.reset)
    (hbyte : ∀ p f b, P p f → P p (stepByte p f b).frame) {s t : State} (hs : P s.params s.frame)
    (h : step s = .next t) : P t.params t.frame := by
  obtain ⟨hparams, hframe | hframe | ⟨bt, hframe⟩⟩ := step_frameSteps h <;> rw [hparams, hframe]
  · exact hs
  · exact hreset _ _ hs
  · exact batchLoop_keeps (P := fun f _ => P s.params f) (fun f _ b hf _ => hbyte _ f b hf) _ _ _ hs

/-! ### The invariant, update by update -/

theorem StateInv.frameInv {s : State} (h : StateInv s) : FrameInv s.params s.frame :=
  ⟨h.params_legal, h.cursor_in_frame, ⟨h.fs1_le, h.fs2_le⟩, h.pb_wf, h.pb_within⟩

theorem StateInv.with_pending {s : State} (h : StateInv s) (rest : List Input) : StateInv { s with pending := rest } :=
  { h with }

theorem StateInv.with_engine {s : State} (h : StateInv s) {a b : Byte} (ha : a.toNat ≤ 254) (hb : b.toNat ≤ 254) :
    StateInv { s with s1 := a, s2 := b } :=
  { h with s1_le := ha, s2_le := hb }

theorem raiseCmdError_stateInv {s : State} (h : StateInv s) (e : CmdError) : StateInv (raiseCmdError e s) :=
  { h with
    err_high_clear := by
      rw [raiseCmdError_err, BitVec.toNat_or]
      exact Nat.or_lt_two_pow (n := 3) h.err_high_clear (by cases e <;> decide) }

theorem reply_stateInv {s : State} (h : StateInv s) (v : Word) : StateInv (reply v s) := { h with }

theorem appendByte_stateInv {s : State} (h : StateInv s) (b : Byte) : StateInv (appendByte b s) := { h with }

theorem releaseReset_stateInv {s : State} (h : StateInv s) : StateInv (releaseReset s) :=
  { h with batch_running := fun bt hb => ⟨(h.batch_running bt hb).1, rfl⟩ }

theorem stateInv_of_frameInv {s : State} (h : FrameInv s.params s.frame) (h1 : s.s1.toNat ≤ 254)
    (h2 : s.s2.toNat ≤ 254) (hstatus : statusLegal s.status = true) (herr : s.err.toNat < 8)
    (hbatch : ∀ bt, s.batch = some bt → batchRunning bt = true ∧ s.rstAsserted = false) : StateInv s :=
  ⟨h.params_legal, h.cursor_in_frame, h.sums_in_range.1, h.sums_in_range.2, h1, h2, hstatus, herr, h.pb_wf,
    h.pb_within, hbatch⟩

/-- The reset values of the frame registers (10_state.md R34). -/
theorem frameInv_reset {p : Params} (hp : p.Legal) : FrameInv p Frame.reset :=
  ⟨hp, cursorInFrame_of_cursor_zero p rfl, ⟨by decide, by decide⟩, .nil, nofun⟩

theorem blockReset_stateInv {s : State} (h : StateInv s) : StateInv (blockReset s) :=
  stateInv_of_frameInv (frameInv_reset h.params_legal) (Nat.zero_le _) (Nat.zero_le _) rfl (Nat.zero_lt_succ _) nofun

/-- A batch runs only with RST released; it ends with a legal status, or waits where its loop goes on. -/
theorem runBatch_stateInv {s : State} (h : StateInv s) (hrst : s.rstAsserted = false) (bt : Batch) :
    StateInv (runBatch bt s) := by
  have hframe := batchLoop_frameInv h.frameInv s.q bt
  rw [← runBatch_frame, ← runBatch_params bt s] at hframe
  have rest : statusLegal (runBatch bt s).status = true ∧
      ∀ bt', (runBatch bt s).batch = some bt' → batchRunning bt' = true := by
    obtain ⟨hrun, -, hbatch, hstatus, -⟩ | ⟨-, hbatch, hstatus, -⟩ := runBatch_cases bt s
    · rw [hstatus, hbatch]
      exact ⟨h.status_legal, fun bt' hb => Option.some.inj hb ▸ hrun⟩
    · rw [hstatus, hbatch]
      exact ⟨statusLegal_endStatus _ _, nofun⟩
  exact stateInv_of_frameInv hframe ((runBatch_s1 bt s).symm ▸ h.s1_le) ((runBatch_s2 bt s).symm ▸ h.s2_le) rest.1
    ((runBatch_err bt s).symm ▸ h.err_high_clear)
    fun bt' hb => ⟨rest.2 bt' hb, (runBatch_rstAsserted bt s).trans hrst⟩

/-! ### The invariant, step by step -/

theorem exec_stateInv {i : Instr} {s t : State} (hs : StateInv s) (hrst : s.rstAsserted = false)
    (h : exec i s = .next t) : StateInv t := by
  obtain ⟨-, rfl⟩ | ⟨b, -, rfl⟩ | ⟨n, -, rfl⟩ := exec_cases h
  · exact hs.with_engine (by decide) (by decide)
  · exact hs.with_engine (fold_fst_le _ _) (fold_snd_le _ _)
  · exact runBatch_stateInv hs hrst _

/-- A transaction takes effect only with RST released; then every input keeps the invariant. -/
theorem perform_stateInv {x : Input} {s t : State} (hs : StateInv s)
    (hrst : isTransaction x = true → s.rstAsserted = false) (h : perform x s = .next t) : StateInv t := by
  obtain ⟨v, i, rfl, -, hexec⟩ | ⟨v, e, -, -, rfl⟩ | ⟨idx, v, -, -, rfl⟩ | ⟨idx, v, u, -, hread, rfl⟩ | ⟨b, -, rfl⟩ |
    ⟨-, rfl⟩ | ⟨-, rfl⟩ := perform_cases h
  · exact exec_stateInv hs (hrst rfl) hexec
  · exact raiseCmdError_stateInv hs _
  · exact raiseCmdError_stateInv hs _
  · obtain ⟨rfl, -⟩ | ⟨rfl, -, -⟩ := regRead_cases hread
    · exact reply_stateInv hs v
    · exact reply_stateInv (raiseCmdError_stateInv hs _) v
  · exact appendByte_stateInv hs b
  · exact blockReset_stateInv hs
  · exact releaseReset_stateInv hs

/-- A transaction comes next only where the port is open (20_memory.md R49; 70_reset_and_hazards.md R122). -/
theorem idle_of_nextInput_transaction {s : State} {x : Input} {rest : List Input} (h : nextInput s = some (x, rest))
    (hx : isTransaction x = true) : idle s := by
  cases hblk : portBlocked s with
  | true =>
    rw [nextInput_blocked hblk] at h
    cases hx.symm.trans (takeNonTransaction_spec h).1
  | false => simpa [portBlocked] using hblk

theorem step_stateInv {s t : State} (hs : StateInv s) (h : step s = .next t) : StateInv t := by
  obtain ⟨bt, hbatch, -, hgo⟩ | ⟨-, x, rest, hnext, hinput⟩ | ⟨-, -, hidle⟩ := step_cases s
  · cases h.symm.trans hgo
    exact runBatch_stateInv hs (hs.batch_running bt hbatch).2 bt
  · exact perform_stateInv (hs.with_pending rest) (fun hx => (idle_of_nextInput_transaction hnext hx).2)
      (hinput.symm.trans h)
  · cases h.symm.trans hidle
    exact hs

/-! ### Every step answers -/

theorem readReg_next {s : State} (h : statusLegal s.status = true) (r : Reg) : ∃ v, readReg r s = .ok v := by
  cases r with
  | status => exact ⟨_, if_pos h⟩
  | _ => exact ⟨_, rfl⟩

theorem regRead_of_readReg {s : State} {idx v : Word} {r : Reg} (hr : regAt s.params idx = some r)
    (hv : readReg r s = .ok v) : regRead idx s = .next (v, s) := by
  simp only [regRead, hr, hv]

theorem regRead_unmapped {s : State} {idx : Word} (h : regAt s.params idx = none) :
    regRead idx s = .next (0, raiseCmdError .badrd s) := by
  simp only [regRead, h]

theorem regRead_next {s : State} (h : statusLegal s.status = true) (idx : Word) : ∃ r, regRead idx s = .next r := by
  cases hr : regAt s.params idx with
  | none => exact ⟨_, regRead_unmapped hr⟩
  | some r =>
    obtain ⟨v, hv⟩ := readReg_next h r
    exact ⟨_, regRead_of_readReg hr hv⟩

theorem perform_regRead {s t : State} {idx v : Word} (h : regRead idx s = .next (v, t)) :
    perform (.regRead idx) s = .next (reply v t) := by
  simp only [perform, h]

theorem regWrite_next (idx v : Word) (s : State) : ∃ t, regWrite idx v s = .next t := by
  by_cases hidx : idx = 0
  · subst hidx
    cases hd : decode v with
    | ok i =>
      obtain ⟨t, ht, -⟩ := exec_next_err i s
      exact ⟨t, (execute_of_decode hd s).trans ht⟩
    | error e => exact ⟨_, execute_of_illegal ⟨e, hd⟩ s⟩
  · exact ⟨_, regWrite_elsewhere hidx v s⟩

theorem perform_next {s : State} (h : statusLegal s.status = true) (x : Input) : ∃ t, perform x s = .next t := by
  cases x with
  | regWrite idx v => exact regWrite_next idx v s
  | regRead idx =>
    obtain ⟨r, hr⟩ := regRead_next h idx
    exact ⟨_, perform_regRead hr⟩
  | byte b => exact ⟨_, rfl⟩
  | rst a => cases a <;> exact ⟨_, rfl⟩

/-! ### The obligations -/

/-- Settles O52: each update of the state keeps the invariant, and a batch runs only with RST released. -/
theorem everyStepKeepsTheInvariant : Obligations.EveryStepKeepsTheInvariant := fun _ _ => step_stateInv

/-- Settles O53: a step's frame is the old one, the reset one or a batch loop's, and every byte keeps that `FCS` covers
the payload taken. -/
theorem everyStepKeepsFrameSumCovering : Obligations.EveryStepKeepsFrameSumCovering := by
  intro s t hs hcovers h
  refine (step_keeps_frame (P := fun p f => FrameInv p f ∧ frameSumCovers p f) (fun p f hf => ?_)
    (fun p f b hf => ?_) ⟨hs.frameInv, hcovers⟩ h).2
  · exact ⟨frameInv_reset hf.1.params_legal, frameSumCovers_of_cursor_zero p rfl⟩
  · exact ⟨stepByte_frameInv hf.1 b, stepByte_frameSumCovers hf.1.params_legal hf.1.cursor_in_frame hf.2 b⟩

/-- Settles O54: with a legal `STATUS` every input answers a next state, and so do a batch and a wait. -/
theorem nothingStopsTheMachine : Obligations.NothingStopsTheMachine := by
  intro s hs
  obtain ⟨bt, -, -, hgo⟩ | ⟨-, x, rest, -, hinput⟩ | ⟨-, -, hidle⟩ := step_cases s
  · exact ⟨_, hgo⟩
  · rw [hinput]
    exact perform_next (hs.with_pending rest).status_legal x
  · exact ⟨_, hidle⟩

/-- Settles O50: no update of the state touches the parameters. -/
theorem parametersNeverChange : Obligations.ParametersNeverChange := fun _ _ h => (step_frameSteps h).1

/-- Settles O51: the reset values, and a cursor at 0, for which nothing is claimed of `FCS`. -/
theorem resetMeetsTheInvariant : Obligations.ResetMeetsTheInvariant :=
  ⟨stateInv_of_frameInv (frameInv_reset configParams_legal) (by decide) (by decide) rfl (by decide) nofun,
    frameSumCovers_of_cursor_zero _ rfl⟩

end Sys2Proof.Machine

/-! SUPPORT and the statements of 41_frame_parser.md about a batch: its end, its wait, and its parts. -/

namespace Sys2Proof.Machine

/-! ### The state a batch leaves -/

theorem exec_fpBatch (n : Half) (s : State) : exec (.fpBatch n) s = .next (runBatch ⟨n, 0, false, false⟩ s) := rfl

/-- A batch that waits has written the frame registers only (41_frame_parser.md R93). -/
theorem runBatch_of_running {bt : Batch} {s : State}
    (h : batchRunning (batchLoop s.params s.q s.frame bt).batch = true) :
    runBatch bt s = { s with
      q := []
      frame := (batchLoop s.params s.q s.frame bt).frame
      batch := some (batchLoop s.params s.q s.frame bt).batch } := by
  simp only [runBatch, h, if_true, batchLoop_q_of_running _ _ _ h]

/-- A batch changes the frame registers, `STATUS`, `BCNT`, `Q` and the wait, and nothing else. -/
theorem runBatch_eq_with (bt : Batch) (s : State) :
    runBatch bt s = { s with
      frame := (runBatch bt s).frame
      status := (runBatch bt s).status
      bcnt := (runBatch bt s).bcnt
      batch := (runBatch bt s).batch
      q := (runBatch bt s).q } := by
  simp only [runBatch]
  split <;> rfl

/-- Only what its loop leaves matters to a batch: not the bytes and the frame it started from, nor an earlier wait. -/
theorem runBatch_congr {bt bt' : Batch} {s : State} {q : List Byte} {f : Frame}
    (h : batchLoop s.params s.q s.frame bt = batchLoop s.params q f bt') (w : Option Batch) :
    runBatch bt s = runBatch bt' { s with q := q, frame := f, batch := w } := by
  simp only [runBatch, h]
  split <;> rfl

/-- A batch that goes on with a byte in `Q` is that byte and the rest of the batch (41_frame_parser.md R81). -/
theorem runBatch_cons {bt : Batch} {s : State} {b : Byte} {q : List Byte} (hq : s.q = b :: q)
    (hr : batchRunning bt = true) (w : Option Batch) :
    runBatch bt s = runBatch (batchAfter bt (stepByte s.params s.frame b).event)
      { s with q := q, frame := (stepByte s.params s.frame b).frame, batch := w } :=
  runBatch_congr (by rw [hq, batchLoop_cons_running hr]) w

/-! ### How many bytes a batch takes -/

/-- A batch that still runs has taken all there were (41_frame_parser.md R93). -/
theorem batchLoop_k_of_running {p : Params} {q : List Byte} {f : Frame} {bt : Batch}
    (h : batchRunning (batchLoop p q f bt).batch = true) : (batchLoop p q f bt).batch.k = bt.k + q.length := by
  obtain ⟨j, hj, hk, hq⟩ := batchLoop_takes (p := p) q f bt
  have hall : q.length ≤ j := List.drop_eq_nil_iff.1 (hq.symm.trans (batchLoop_q_of_running q f bt h))
  rw [hk, hj.antisymm hall]

theorem batchLoop_stops {p : Params} {q : List Byte} {f : Frame} {bt : Batch} (h : bt.n.toNat ≤ bt.k + q.length) :
    batchRunning (batchLoop p q f bt).batch = false := by
  by_contra hr
  have hr := Bool.eq_true_of_not_eq_false hr
  have hlt := ((batchRunning_iff _).1 hr).1
  rw [batchLoop_k_of_running hr, batchLoop_n] at hlt
  omega

theorem runBatch_ended_iff (bt : Batch) (s : State) :
    (runBatch bt s).batch = none ↔ batchRunning (batchLoop s.params s.q s.frame bt).batch = false := by
  obtain ⟨hr, -, hb, -⟩ | ⟨hr, hb, -⟩ := runBatch_cases bt s <;> simp [hr, hb]

theorem statusLegal_iff (v : BitVec 3) : statusLegal v = true ↔ v = 0 ∨ v = 1 ∨ v = 3 ∨ v = 4 := by
  revert v
  decide

/-! ### The rest of a batch as a batch of its own -/

/-- The end-of-batch status where mismatches before the counted ones are known of (41_frame_parser.md R94). -/
theorem endStatus_or {bt bt' : Batch} {r : Bool} (hd : bt.done = bt'.done) (hr : bt.rst = (r || bt'.rst)) (f : Frame) :
    endStatus bt f = if r = true ∧ endStatus bt' f = 0 then 1 else endStatus bt' f := by
  unfold endStatus
  rw [hd, hr]
  cases bt'.done with
  | true => split_ifs <;> simp_all [statusVerified, statusChecksumError]
  | false => cases r <;> cases bt'.rst <;> rfl

/-- A batch with `m` bytes to go leaves the frame registers, the queue and the wait of a batch of `m` bytes, counts the
bytes it had before, and keeps RESET for the mismatches it had before (41_frame_parser.md R94, R106). -/
theorem runBatch_rest {s s' : State} {bt : Batch} {m : Half} (hp : s.params = s'.params) (hf : s.frame = s'.frame)
    (hq : s.q = s'.q) (hdone : bt.done = false) (hm : bt.n.toNat - bt.k = m.toNat) :
    (runBatch bt s).frame = (runBatch ⟨m, 0, false, false⟩ s').frame ∧
    (runBatch bt s).q = (runBatch ⟨m, 0, false, false⟩ s').q ∧
    (runBatch bt s).batch.isSome = (runBatch ⟨m, 0, false, false⟩ s').batch.isSome ∧
    ((runBatch ⟨m, 0, false, false⟩ s').batch = none →
      (runBatch bt s).bcnt = (runBatch ⟨m, 0, false, false⟩ s').bcnt + BitVec.ofNat 16 bt.k ∧
      (runBatch bt s).status =
        if bt.rst = true ∧ (runBatch ⟨m, 0, false, false⟩ s').status = 0 then 1
        else (runBatch ⟨m, 0, false, false⟩ s').status) := by
  obtain ⟨hloopq, hframe, hd, hrun, j, x, hk, hk', hr, hr'⟩ :=
    batchLoop_shift (p := s'.params) s'.q s'.frame bt ⟨m, 0, false, false⟩ hdone hm
  rw [runBatch_frame, runBatch_frame, runBatch_q, runBatch_q, hp, hf, hq]
  refine ⟨hframe, hloopq, ?_, fun hend => ?_⟩
  · have hnone : (runBatch bt s).batch = none ↔ (runBatch ⟨m, 0, false, false⟩ s').batch = none := by
      rw [runBatch_ended_iff, runBatch_ended_iff, hp, hf, hq, hrun]
    rw [Bool.eq_iff_iff, Option.isSome_iff_ne_none, Option.isSome_iff_ne_none]
    exact not_congr hnone
  · have hend' : (runBatch bt s).batch = none := by
      rw [runBatch_ended_iff] at hend ⊢
      rw [hp, hf, hq, hrun, hend]
    obtain ⟨-, hstatus, hbcnt⟩ := runBatch_writes_of_ended hend
    obtain ⟨-, hstatus', hbcnt'⟩ := runBatch_writes_of_ended hend'
    rw [runBatch_frame, hp, hf, hq] at hstatus'
    rw [hp, hf, hq] at hbcnt'
    rw [runBatch_frame] at hstatus
    constructor
    · rw [hbcnt, hbcnt', hk, hk', Nat.zero_add, Nat.add_comm, BitVec.ofNat_add]
    · rw [hstatus, hstatus', hframe]
      exact endStatus_or hd (by rw [hr, hr', Bool.false_or]) _

/-- The frame a batch completed, from the byte that completed it (41_frame_parser.md R91). -/
theorem stepByte_eq_finalTail {p : Params} {f : Frame} {b : Byte} (h : (stepByte p f b).event = .frameDone) :
    stepByte p f b = finalTail f := by
  obtain ⟨hs, -⟩ | ⟨hs, -⟩ | ⟨hs, -⟩ | ⟨hs, -⟩ | ⟨hs, -⟩ | ⟨hs, -⟩ | ⟨hs, -⟩ | ⟨hs, -⟩ | ⟨hs, -⟩ | ⟨hs, -⟩ :=
    stepByte_cases p f b <;> rw [hs] at h
  any_goals cases h
  exact hs

/-- The status of a batch of one byte says what the byte did (41_frame_parser.md R94). -/
theorem runBatch_one_cases {s : State} {b : Byte} {q : List Byte} (hq : s.q = b :: q) :
    ((stepByte s.params s.frame b).event = .accepted ∧ (runBatch ⟨1, 0, false, false⟩ s).status = 0) ∨
    ((stepByte s.params s.frame b).event = .mismatch ∧ (runBatch ⟨1, 0, false, false⟩ s).status = 1) ∨
    ((stepByte s.params s.frame b).event = .frameDone ∧
      ((runBatch ⟨1, 0, false, false⟩ s).status = 3 ∨ (runBatch ⟨1, 0, false, false⟩ s).status = 4)) := by
  rw [runBatch_one hq]
  cases he : (stepByte s.params s.frame b).event with
  | accepted => exact .inl ⟨rfl, rfl⟩
  | mismatch => exact .inr (.inl ⟨rfl, rfl⟩)
  | frameDone =>
    have hdone : (batchAfter ⟨1, 0, false, false⟩ .frameDone).done = true := rfl
    exact .inr (.inr ⟨rfl, (endStatus_completed _ (stepByte s.params s.frame b).frame).2 hdone⟩)

theorem runBatch_one_reset_iff {s : State} {b : Byte} {q : List Byte} (hq : s.q = b :: q) :
    (runBatch ⟨1, 0, false, false⟩ s).status = 1 ↔ (stepByte s.params s.frame b).event = .mismatch := by
  obtain ⟨he, h⟩ | ⟨he, h⟩ | ⟨he, h | h⟩ := runBatch_one_cases hq <;> rw [he, h] <;> decide

theorem runBatch_one_completed_iff {s : State} {b : Byte} {q : List Byte} (hq : s.q = b :: q) :
    (runBatch ⟨1, 0, false, false⟩ s).status = 3 ∨ (runBatch ⟨1, 0, false, false⟩ s).status = 4 ↔
      (stepByte s.params s.frame b).event = .frameDone := by
  obtain ⟨he, h⟩ | ⟨he, h⟩ | ⟨he, h | h⟩ := runBatch_one_cases hq <;> rw [he, h] <;> decide

theorem toNat_succ_count {n : Half} (hn : n.toNat < 65535) : (n + 1).toNat = n.toNat + 1 := by
  rw [BitVec.toNat_add]
  exact Nat.mod_eq_of_lt (Nat.succ_lt_succ hn)

/-- A batch whose first byte completes no frame has `n` bytes to go after it, like a batch of `n`
(41_frame_parser.md R81, R106). -/
theorem runBatch_succ {s : State} {b : Byte} {q : List Byte} {n : Half} (hq : s.q = b :: q) (hn : n.toNat < 65535)
    (he : (stepByte s.params s.frame b).event ≠ .frameDone) {t u v : State}
    (ht : t = runBatch ⟨1, 0, false, false⟩ s) (hu : u = runBatch ⟨n, 0, false, false⟩ t)
    (hv : v = runBatch ⟨n + 1, 0, false, false⟩ s) :
    v.frame = u.frame ∧ v.q = u.q ∧ v.batch.isSome = u.batch.isSome ∧
      (u.batch = none → v.bcnt = u.bcnt + 1 ∧
        v.status = if t.status = 1 ∧ u.status = 0 then 1 else u.status) := by
  have hsucc := toNat_succ_count hn
  have hgo : batchRunning ⟨n + 1, 0, false, false⟩ = true :=
    (batchRunning_iff _).2 ⟨hsucc.symm ▸ Nat.succ_pos _, rfl⟩
  rw [hv, runBatch_cons hq hgo none]
  obtain ⟨hframe, hqueue, hwait, hend⟩ := runBatch_rest
    (s := { s with q := q, frame := (stepByte s.params s.frame b).frame, batch := none })
    (s' := t)
    (bt := batchAfter ⟨n + 1, 0, false, false⟩ (stepByte s.params s.frame b).event) (m := n)
    (by rw [ht, runBatch_params]) (by rw [ht, runBatch_one hq]) (by rw [ht, runBatch_one hq]) (by simp [he])
    (Nat.sub_eq_of_eq_add hsucc)
  rw [← hu] at hframe hqueue hwait hend
  refine ⟨hframe, hqueue, hwait, fun h => ?_⟩
  obtain ⟨hbcnt, hstatus⟩ := hend h
  refine ⟨hbcnt, hstatus.trans ?_⟩
  simp only [ht, runBatch_one_reset_iff hq, batchAfter_rst, Bool.false_or, decide_eq_true_iff]

/-! ### A wait with nothing to come -/

theorem takeNonTransaction_eq_none {xs : List Input} (h : ∀ x ∈ xs, isTransaction x = true) :
    takeNonTransaction xs = none := by
  induction xs with
  | nil => rfl
  | cons x xs ih =>
    rw [takeNonTransaction, if_pos (h x (List.mem_cons_self ..)), ih fun y hy => h y (List.mem_cons_of_mem x hy)]

/-! ### The checksum of a completed frame -/

/-- What a completed frame leaves to know of its checksum, along the loop of a batch (41_frame_parser.md R98). -/
def coversUntilDone (p : Params) (f : Frame) (bt : Batch) : Prop :=
  FrameInv p f ∧ frameSumCovers p f ∧ (bt.done = true → f.len.toNat ≤ p.C → payloadTaken f f.len.toNat)

theorem stepByte_coversUntilDone {p : Params} {f : Frame} {bt : Batch} (b : Byte) (h : coversUntilDone p f bt)
    (hr : batchRunning bt = true) :
    coversUntilDone p (stepByte p f b).frame (batchAfter bt (stepByte p f b).event) := by
  obtain ⟨hinv, hcovers, -⟩ := h
  refine ⟨stepByte_frameInv hinv b, stepByte_frameSumCovers hinv.params_legal hinv.cursor_in_frame hcovers b,
    fun hdone hC => ?_⟩
  rw [batchAfter_done, ((batchRunning_iff bt).1 hr).2, Bool.false_or, decide_eq_true_iff] at hdone
  exact stepByte_payloadTaken hcovers hdone hC

/-! ### The obligations -/

/-- Settles O23: a batch of one byte ends UNFINISHED exactly where the byte was accepted, which moves the cursor on. -/
theorem cursorGrowsByOneOrReturnsToZero : Obligations.CursorGrowsByOneOrReturnsToZero := by
  intro s t b q hs hq h
  obtain rfl := Host.Outcome.next.inj h
  have hframe : (runBatch ⟨1, 0, false, false⟩ s).frame = (stepByte s.params s.frame b).frame := by
    rw [runBatch_one hq]
  have hin := stepByte_cursorInFrame hs.params_legal hs.cursor_in_frame b
  have hlt := (cursorInFrame_lt hs.params_legal hin).1
  rw [hframe]
  refine ⟨?_, by omega⟩
  obtain ⟨he, hc, -⟩ | ⟨he, hc⟩ := stepByte_cursor hs.params_legal hs.cursor_in_frame b
  all_goals obtain ⟨he', h⟩ | ⟨he', h⟩ | ⟨he', h⟩ := runBatch_one_cases hq
  · exact .inl ⟨h, hc⟩
  · cases he.symm.trans he'
  · cases he.symm.trans he'
  · exact absurd he' he
  · exact .inr ⟨by rw [h]; decide, by rw [hc]; rfl⟩
  · exact .inr ⟨by obtain h | h := h <;> rw [h] <;> decide, by rw [hc]; rfl⟩

/-- Settles O25: the loop cannot run out of bytes, so the batch ends, with what it took counted in `BCNT`. -/
theorem batchWithEnoughBytesCompletes : Obligations.BatchWithEnoughBytesCompletes := by
  intro n s hn
  have hend : (runBatch ⟨n, 0, false, false⟩ s).batch = none :=
    (runBatch_ended_iff _ _).2 (batchLoop_stops (by rwa [Nat.zero_add]))
  have hle : (runBatch ⟨n, 0, false, false⟩ s).bcnt.toNat ≤ n.toNat := by
    rw [runBatch_bcnt_toNat_of_ended hend (Nat.zero_le _)]
    exact batchLoop_k_le _ _ _ (Nat.zero_le _)
  refine ⟨_, exec_fpBatch n s, hle, fun hne => ?_, ?_, ?_⟩
  · have hlt := lt_of_le_of_ne hle (mt BitVec.eq_of_toNat_eq hne)
    exact runBatch_status_of_done hend (batchLoop_done_of_bcnt_lt hend (Nat.zero_le _) hlt)
  · rw [← statusLegal_iff, (runBatch_writes_of_ended hend).2.1]
    exact statusLegal_endStatus _ _
  · rw [← hend, ← runBatch_q_of_ended hend rfl]
    exact runBatch_eq_with _ s

/-- Settles O26: after the first byte the batch has `n` bytes to go, like a batch of `n`, or has stopped. -/
theorem batchIsItsFirstByteThenTheRest : Obligations.BatchIsItsFirstByteThenTheRest := by
  intro n s b q hq hn
  refine ⟨_, _, _, exec_fpBatch 1 s, exec_fpBatch n _, exec_fpBatch (n + 1) s, ?_⟩
  have hcompleted := runBatch_one_completed_iff hq
  by_cases he : (stepByte s.params s.frame b).event = .frameDone
  · have hne : n + 1 ≠ 0 := fun h0 =>
      absurd ((toNat_succ_count hn).symm.trans (congrArg BitVec.toNat h0)) (Nat.succ_ne_zero _)
    have hone := exec_fpBatch_frameDone hq (stepByte_eq_finalTail he) (n := 1) (by decide)
    have hall := exec_fpBatch_frameDone hq (stepByte_eq_finalTail he) hne
    exact ⟨fun _ => Host.Outcome.next.inj (hall.trans hone.symm),
      fun h3 h4 => absurd (hcompleted.2 he) (not_or.2 ⟨h3, h4⟩)⟩
  · exact ⟨fun h => absurd (hcompleted.1 h) he, fun _ _ => runBatch_succ hq hn he rfl rfl rfl⟩

/-- Settles O27: after the first batch the summed one has `b` bytes to go, like the second. -/
theorem splitBatchesParseAlike : Obligations.SplitBatchesParseAlike := by
  intro a b s t hab h hend hstatus
  obtain rfl := Host.Outcome.next.inj h
  refine ⟨_, _, exec_fpBatch b _, exec_fpBatch (a + b) s, ?_⟩
  have hsum : (a + b).toNat = a.toNat + b.toNat := by
    rw [BitVec.toNat_add]
    exact Nat.mod_eq_of_lt (by omega)
  obtain ⟨hstop, hst, -⟩ := runBatch_writes_of_ended hend
  have hdone : (batchLoop s.params s.q s.frame ⟨a, 0, false, false⟩).batch.done = false := by
    by_contra hd
    have h34 := runBatch_status_of_done hend (Bool.eq_true_of_not_eq_false hd)
    rcases hstatus with h0 | h0 <;> rw [h0] at h34 <;> exact absurd h34 (by decide)
  have hk : (batchLoop s.params s.q s.frame ⟨a, 0, false, false⟩).batch.k = a.toNat := by
    refine le_antisymm (batchLoop_k_le _ _ _ (Nat.zero_le _)) (not_lt.1 fun hlt => ?_)
    cases hstop.symm.trans ((batchRunning_iff _).2 ⟨by rwa [batchLoop_n], hdone⟩)
  rw [runBatch_congr (batchLoop_extend (by omega : a.toNat ≤ (a + b).toNat) s.q s.frame 0 false false) none]
  obtain ⟨hframe, hqueue, hwait, -⟩ := runBatch_rest
    (s := { s with
      q := (batchLoop s.params s.q s.frame ⟨a, 0, false, false⟩).q
      frame := (batchLoop s.params s.q s.frame ⟨a, 0, false, false⟩).frame
      batch := none })
    (s' := runBatch ⟨a, 0, false, false⟩ s)
    (bt := { (batchLoop s.params s.q s.frame ⟨a, 0, false, false⟩).batch with n := a + b }) (m := b)
    (runBatch_params _ s).symm (runBatch_frame _ s).symm (runBatch_q _ s).symm hdone
    (by show (a + b).toNat - (batchLoop s.params s.q s.frame ⟨a, 0, false, false⟩).batch.k = _; omega)
  exact ⟨hframe, hqueue, hwait⟩

/-- Settles O29: a loop that still runs has taken all there were; with no byte at all it is where it started. -/
theorem batchWaitsOnAnEmptyQueue : Obligations.BatchWaitsOnAnEmptyQueue := by
  refine ⟨fun n s t bt h hbatch => ?_, fun n s hn hq => ?_⟩
  · obtain rfl := Host.Outcome.next.inj h
    obtain ⟨hrun, hq, hwait, hstatus, hbcnt⟩ | ⟨-, hnone, -⟩ := runBatch_cases ⟨n, 0, false, false⟩ s
    · obtain rfl := Option.some.inj (hwait.symm.trans hbatch)
      have hk := batchLoop_k_of_running hrun
      obtain ⟨hlt, hdone⟩ := (batchRunning_iff _).1 hrun
      rw [batchLoop_n, hk, Nat.zero_add] at hlt
      exact ⟨hq, batchLoop_n _ _ _, hk.trans (Nat.zero_add _), hlt, hdone, hstatus, hbcnt⟩
    · cases hnone.symm.trans hbatch
  · have hrun : batchRunning ⟨n, 0, false, false⟩ = true :=
      (batchRunning_iff _).2 ⟨BitVec.toNat_pos_of_ne_zero hn, rfl⟩
    have hloop : batchLoop s.params s.q s.frame ⟨n, 0, false, false⟩ = ⟨[], s.frame, ⟨n, 0, false, false⟩⟩ := by
      rw [hq, batchLoop_nil]
    rw [exec_fpBatch, runBatch_of_running (by rw [hloop]; exact hrun), hloop, ← hq]

/-- Settles O30: with only transactions to come, none can take effect. -/
theorem waitWithNothingToComeIsStuck : Obligations.WaitWithNothingToComeIsStuck := by
  intro s bt hbatch hq hpending
  have hblk : portBlocked s = true := by simp [portBlocked, hbatch]
  exact step_idle (.inr hq) ((nextInput_blocked hblk).trans (takeNonTransaction_eq_none hpending))

/-- Settles O31: the loop over the bytes there and those to come goes on into the second part from the first. -/
theorem waitingBatchGoesOnAsIfTheBytesHadBeenThere : Obligations.WaitingBatchGoesOnAsIfTheBytesHadBeenThere := by
  intro n s t ys h hwait hys
  obtain rfl := Host.Outcome.next.inj h
  have hrun : batchRunning (batchLoop s.params s.q s.frame ⟨n, 0, false, false⟩).batch = true :=
    Bool.eq_true_of_not_eq_false (mt (runBatch_ended_iff _ s).2 hwait)
  have happend := batchLoop_append (p := s.params) s.q ys s.frame ⟨n, 0, false, false⟩
  rw [if_pos hrun] at happend
  rw [runBatch_of_running hrun, exec_fpBatch, step_resume rfl hys]
  exact congrArg _ (runBatch_congr (s := { s with q := s.q ++ ys }) happend _).symm

/-- Settles O34: the byte that completes a frame finds `FCS` covering the whole payload, and the loop stops there. -/
theorem completedFrameChecksumIsOfTheBuffer : Obligations.CompletedFrameChecksumIsOfTheBuffer := by
  intro n s t hs hcovers h hend hstatus hC
  obtain rfl := Host.Outcome.next.inj h
  obtain ⟨-, hst, -⟩ := runBatch_writes_of_ended hend
  have hdone : (batchLoop s.params s.q s.frame ⟨n, 0, false, false⟩).batch.done = true := by
    rw [hst] at hstatus
    exact (endStatus_completed _ _).1 hstatus
  obtain ⟨-, -, htaken⟩ := batchLoop_keeps (P := coversUntilDone s.params)
    (fun _ _ b hf hr => stepByte_coversUntilDone b hf hr) s.q s.frame ⟨n, 0, false, false⟩
    ⟨hs.frameInv, hcovers, nofun⟩
  rw [← runBatch_frame] at htaken
  rw [runBatch_params] at hC
  obtain ⟨xs, hlen, hheld, hfold⟩ := htaken hdone hC
  have hsum : frameChecksum (runBatch ⟨n, 0, false, false⟩ s).frame = checksum xs := by
    rw [checksum_eq_packBytes, hfold]
    rfl
  refine ⟨xs, hlen, hheld, hsum, fun h3 => ?_, fun he => ?_⟩
  · exact (runBatch_verified hend h3).symm.trans hsum
  · rw [hst, endStatus, if_pos hdone, if_pos (hsum.trans he.symm)]
    rfl

end Sys2Proof.Machine

/-! SUPPORT and the statements of 41_frame_parser.md about whole frames: a wire frame in one batch, at frame start and
after a header mismatch. -/

namespace Sys2Proof.Machine

/-! ### Literal bytes: header and tail -/

/-- The frame registers with the cursor at a place given as a number. -/
def atCursor (f : Frame) (c : Nat) : Frame := { f with cursor := BitVec.ofNat 32 c }

theorem atCursor_zero {f : Frame} (h : f.cursor = 0) : atCursor f 0 = f := by
  rw [atCursor, show BitVec.ofNat 32 0 = f.cursor from h.symm]

theorem atCursor_succ (f : Frame) (c : Nat) :
    { atCursor f c with cursor := (atCursor f c).cursor + 1 } = atCursor f (c + 1) := by
  simp only [atCursor, BitVec.ofNat_add]
  rfl

theorem Accepts.cons_of_eq {p : Params} {f g h : Frame} {b : Byte} {xs : List Byte}
    (hb : stepByte p f b = ⟨g, .accepted⟩) (ht : Accepts p g xs h) : Accepts p f (b :: xs) h :=
  .cons (by rw [hb]) (by rwa [hb])

/-- Bytes that each only advance the cursor are accepted and advance it by their number. -/
theorem accepts_literal {p : Params} {f : Frame} {ys : List Byte} : ∀ {c : Nat},
    (∀ i b, ys[i]? = some b → stepByte p (atCursor f (c + i)) b = ⟨atCursor f (c + i + 1), .accepted⟩) →
    Accepts p (atCursor f c) ys (atCursor f (c + ys.length)) := by
  induction ys with
  | nil => exact fun _ => .nil _
  | cons y ys ih =>
    intro c h
    refine .cons_of_eq (h 0 y rfl) ?_
    rw [List.length_cons, Nat.add_comm ys.length, ← Nat.add_assoc]
    refine ih fun i b hb => ?_
    have := h (i + 1) b hb
    rwa [← Nat.add_assoc, Nat.add_right_comm] at this

/-- The first `k` header bytes bring the cursor from 0 to `k` (41_frame_parser.md R83). -/
theorem accepts_header {p : Params} (hp : p.Legal) (f : Frame) {k : Nat} (hk : k ≤ p.H) :
    Accepts p (atCursor f 0) (p.hdr.take k) (atCursor f k) := by
  have hlen : (p.hdr.take k).length = k := List.length_take_of_le hk
  have hbyte : ∀ i b, (p.hdr.take k)[i]? = some b →
      stepByte p (atCursor f (0 + i)) b = ⟨atCursor f (0 + i + 1), .accepted⟩ := fun i b hb => by
    have hik : i < k := hlen ▸ (List.getElem?_eq_some_iff.1 hb).1
    rw [List.getElem?_take_of_lt hik] at hb
    have hc : (atCursor f i).cursor.toNat = i := toNat_ofNat_cursor (by have := hp.1.2; omega)
    rw [Nat.zero_add, stepByte_of_standsIn .header (hc.trans_lt (hik.trans_le hk)), ← atCursor_succ]
    exact headerByte_match (by rw [hc]; exact hb)
  have h := accepts_literal hbyte
  rwa [hlen, Nat.zero_add] at h

/-- The place of tail byte `t` (30_encoding.md R66). -/
theorem toNat_tailCursor {p : Params} (hp : p.Legal) (f : Frame) {t : Nat} (ht : t < p.T) :
    (atCursor f (p.H + 5 + f.len.toNat + t)).cursor.toNat = p.H + 5 + f.len.toNat + t :=
  toNat_ofNat_cursor (by have := hp.1.2; have := hp.2.1.2; have := f.len.isLt; omega)

theorem stepByte_tail {p : Params} (hp : p.Legal) (f : Frame) {t : Nat} (ht : t < p.T) (b : Byte) :
    stepByte p (atCursor f (p.H + 5 + f.len.toNat + t)) b = tailByte p (atCursor f (p.H + 5 + f.len.toNat + t)) b ∧
      tailIndex p (atCursor f (p.H + 5 + f.len.toNat + t)) = t := by
  have hc := toNat_tailCursor hp f ht
  exact ⟨stepByte_of_standsIn .tail ((Nat.le_add_right _ t).trans_eq hc.symm) b, tailIndex_eq hc⟩

/-- All tail bytes but the last advance the cursor (41_frame_parser.md R90). -/
theorem accepts_tail {p : Params} (hp : p.Legal) (f : Frame) :
    Accepts p (atCursor f (p.H + 5 + f.len.toNat)) p.tail.dropLast
      (atCursor f (p.H + 5 + f.len.toNat + (p.T - 1))) := by
  have hlen : p.tail.dropLast.length = p.T - 1 := List.length_dropLast
  rw [← hlen]
  refine accepts_literal fun i b hb => ?_
  have hi : i < p.T - 1 := hlen ▸ (List.getElem?_eq_some_iff.1 hb).1
  rw [List.getElem?_dropLast, if_pos hi] at hb
  obtain ⟨harm, hindex⟩ := stepByte_tail hp f (t := i) (by omega) b
  rw [harm, ← atCursor_succ]
  exact tailByte_match (by rw [hindex]; exact hb) (by omega)

/-- The last tail byte completes the frame (41_frame_parser.md R91). -/
theorem stepByte_lastTail {p : Params} (hp : p.Legal) (f : Frame) (ht : p.tail ≠ []) :
    stepByte p (atCursor f (p.H + 5 + f.len.toNat + (p.T - 1))) (p.tail.getLast ht) =
      ⟨{ f with cursor := 0 }, .frameDone⟩ := by
  have hT := hp.2.1.1
  obtain ⟨harm, hindex⟩ := stepByte_tail hp f (t := p.T - 1) (by omega) (p.tail.getLast ht)
  rw [harm, tailByte_last _ (by omega)]
  · rfl
  · rw [hindex, ← List.getLast?_eq_getElem?, List.getLast?_eq_some_getLast]

/-! ### The field bytes -/

theorem lowByte_highByte (v : Half) : lowByte (highByte (v.extractLsb' 8 8)) (v.extractLsb' 0 8) = v := by
  have hv := v.isLt
  apply BitVec.eq_of_toNat_eq
  rw [lowByte_toNat, highByte_toNat, BitVec.extractLsb'_toNat, BitVec.extractLsb'_toNat, Nat.shiftRight_eq_div_pow,
    Nat.shiftRight_zero]
  omega

/-- The five bytes after the header fill `CMD`, `LEN` and `EXPCS` and start the frame checksum at 0
(41_frame_parser.md R84 to R88). -/
theorem accepts_fields {p : Params} (hp : p.Legal) (f : Frame) (cmd : Byte) (len expcs : Half) :
    Accepts p (atCursor f p.H) (fieldBytes cmd len expcs)
      (atCursor { f with cmd := cmd, len := len, expcs := expcs, fs1 := 0, fs2 := 0 } (p.H + 5)) := by
  have hc : ∀ j ≤ 4, (BitVec.ofNat 32 (p.H + j)).toNat = p.H + j := fun j hj =>
    toNat_ofNat_cursor (by have := hp.1.2; omega)
  have h : Accepts p (atCursor f p.H) (fieldBytes cmd len expcs)
      (atCursor { f with
        cmd := cmd
        len := lowByte (highByte (len.extractLsb' 8 8)) (len.extractLsb' 0 8)
        expcs := lowByte (highByte (expcs.extractLsb' 8 8)) (expcs.extractLsb' 0 8)
        fs1 := 0
        fs2 := 0 } (p.H + 5)) := by
    refine .cons_of_eq (stepByte_of_standsIn .cmd ?_ _) <|
      .cons_of_eq (stepByte_of_standsIn .lenHi ?_ _) <| .cons_of_eq (stepByte_of_standsIn .lenLo ?_ _) <|
      .cons_of_eq (stepByte_of_standsIn .csHi ?_ _) <| .cons_of_eq (stepByte_of_standsIn .csLo ?_ _) (.nil _)
    · exact hc 0 (by decide)
    · exact hc 1 (by decide)
    · exact hc 2 (by decide)
    · exact hc 3 (by decide)
    · exact hc 4 (by decide)
  rwa [lowByte_highByte, lowByte_highByte] at h

/-! ### The payload in the buffer -/

/-- `PB` after payload bytes from number `i` on, each at its slot (41_frame_parser.md R89, R99). -/
def storePayload (p : Params) : Memory → Nat → List Byte → Memory
  | m, _, [] => m
  | m, i, x :: xs => storePayload p (m.write (payloadSlot p i) x) (i + 1) xs

/-- An entry that is no byte's slot keeps its value. -/
theorem read?_storePayload_other {p : Params} {xs : List Byte} : ∀ {m : Memory} {i j : Nat},
    (∀ k < xs.length, payloadSlot p (i + k) ≠ j) → (storePayload p m i xs).read? j = m.read? j := by
  induction xs with
  | nil => exact fun _ => rfl
  | cons x xs ih =>
    intro m i j h
    have hfirst : j ≠ payloadSlot p i := (h 0 (Nat.succ_pos _)).symm
    rw [storePayload, ih fun k hk => ?_, Memory.read?_write_other _ _ hfirst]
    have := h (k + 1) (Nat.succ_lt_succ hk)
    rwa [← Nat.add_assoc, Nat.add_right_comm] at this

/-- Fewer than `C` entries further on is another slot. -/
theorem payloadSlot_ne {p : Params} {i d : Nat} (hd : 0 < d) (hC : d < p.C) :
    payloadSlot p (i + d) ≠ payloadSlot p i := fun h => by
  have hdvd : p.C ∣ d := (Nat.modEq_zero_iff_dvd).1 (Nat.ModEq.add_left_cancel' i h)
  exact absurd (Nat.le_of_dvd hd hdvd) (by omega)

/-- The last `C` bytes stored are still there (41_frame_parser.md R99). -/
theorem read?_storePayload {p : Params} {xs : List Byte} : ∀ {m : Memory} {i k : Nat} {b : Byte},
    xs[k]? = some b → xs.length ≤ k + p.C → (storePayload p m i xs).read? (payloadSlot p (i + k)) = some b := by
  induction xs with
  | nil => exact fun h => nomatch h
  | cons x xs ih =>
    intro m i k b hb hC
    rw [List.length_cons] at hC
    rw [storePayload]
    cases k with
    | zero =>
      obtain rfl : x = b := Option.some.inj hb
      rw [read?_storePayload_other fun k hk => ?_]
      · exact Memory.read?_write_same _ _ _
      · rw [Nat.add_assoc, Nat.add_zero, Nat.add_comm 1]
        exact payloadSlot_ne (Nat.succ_pos k) (by omega)
    | succ k =>
      have := ih (m := m.write (payloadSlot p i) x) (i := i + 1) (k := k) hb (by omega)
      rwa [Nat.add_assoc, Nat.add_comm 1] at this

/-- The payload bytes are folded and stored, one after another (41_frame_parser.md R89, R98). -/
theorem accepts_payload {p : Params} (hp : p.Legal) {xs : List Byte} : ∀ {f : Frame} {i : Nat},
    i + xs.length = f.len.toNat →
    Accepts p (atCursor f (p.H + 5 + i)) xs
      (atCursor { f with
        fs1 := (foldAll (f.fs1, f.fs2) xs).1
        fs2 := (foldAll (f.fs1, f.fs2) xs).2
        pb := storePayload p f.pb i xs } (p.H + 5 + f.len.toNat)) := by
  induction xs with
  | nil =>
    intro f i hi
    rw [← hi]
    exact .nil _
  | cons x xs ih =>
    intro f i hi
    rw [List.length_cons] at hi
    have hc : (atCursor f (p.H + 5 + i)).cursor.toNat = p.H + 5 + i :=
      toNat_ofNat_cursor (by have := hp.1.2; have := f.len.isLt; omega)
    have hindex : payloadIndex p (atCursor f (p.H + 5 + i)) = i := by
      rw [payloadIndex, hc, Nat.add_sub_cancel_left]
    have hstep : stepByte p (atCursor f (p.H + 5 + i)) x =
        ⟨atCursor { f with
          fs1 := (fold (f.fs1, f.fs2) x).1
          fs2 := (fold (f.fs1, f.fs2) x).2
          pb := f.pb.write (payloadSlot p i) x } (p.H + 5 + (i + 1)), .accepted⟩ := by
      have hin : standsIn p (atCursor f (p.H + 5 + i)).cursor.toNat f.len .payload := by
        rw [hc]
        exact ⟨Nat.le_add_right _ _, by omega⟩
      rw [stepByte_of_standsIn .payload hin, windowByte, payloadByte, hindex, ← Nat.add_assoc, ← atCursor_succ]
      rfl
    exact .cons_of_eq hstep (ih (f := { f with
      fs1 := (fold (f.fs1, f.fs2) x).1
      fs2 := (fold (f.fs1, f.fs2) x).2
      pb := f.pb.write (payloadSlot p i) x }) (by rw [← hi]; exact Nat.succ_add_eq_add_succ _ _))

/-! ### A whole frame -/

/-- The frame registers a whole wire frame leaves, with the cursor back at 0 (41_frame_parser.md R82 to R91). -/
def parsedFrame (p : Params) (f : Frame) (cmd : Byte) (expcs : Half) (xs : List Byte) : Frame where
  cursor := 0
  cmd := cmd
  len := BitVec.ofNat 16 xs.length
  expcs := expcs
  fs1 := (foldAll (0, 0) xs).1
  fs2 := (foldAll (0, 0) xs).2
  pb := storePayload p f.pb 0 xs

theorem parsedFrame_len {p : Params} {f : Frame} {cmd : Byte} {expcs : Half} {xs : List Byte}
    (hxs : xs.length ≤ 65535) : (parsedFrame p f cmd expcs xs).len.toNat = xs.length := by
  rw [parsedFrame, BitVec.toNat_ofNat]
  exact Nat.mod_eq_of_lt (by omega)

/-- All bytes of a wire frame but the last are accepted (30_encoding.md R66; 41_frame_parser.md R82). -/
theorem accepts_wireFrame {p : Params} (hp : p.Legal) {f : Frame} (hf : f.cursor = 0) (cmd : Byte) (expcs : Half)
    {xs : List Byte} (hxs : xs.length ≤ 65535) :
    Accepts p f (p.hdr ++ (fieldBytes cmd (BitVec.ofNat 16 xs.length) expcs ++ (xs ++ p.tail.dropLast)))
      (atCursor (parsedFrame p f cmd expcs xs) (p.H + 5 + xs.length + (p.T - 1))) := by
  have hlen := parsedFrame_len (p := p) (f := f) (cmd := cmd) (expcs := expcs) hxs
  have header := accepts_header hp f (le_refl p.H)
  rw [atCursor_zero hf, List.take_length] at header
  have payload := accepts_payload hp (xs := xs) (i := 0) (f := { f with
    cmd := cmd, len := BitVec.ofNat 16 xs.length, expcs := expcs, fs1 := 0, fs2 := 0 })
    ((Nat.zero_add _).trans hlen.symm)
  have tail := accepts_tail hp (parsedFrame p f cmd expcs xs)
  rw [hlen] at tail
  exact header.append ((accepts_fields hp f cmd _ expcs).append (payload.append (hlen.symm ▸ tail)))

/-- A batch large enough takes a whole wire frame and stops after it (41_frame_parser.md R91, R97). -/
theorem batchLoop_wireFrame {p : Params} (hp : p.Legal) {f : Frame} (hf : f.cursor = 0) (cmd : Byte) (expcs : Half)
    {xs : List Byte} (hxs : xs.length ≤ 65535) (rest : List Byte) {bt : Batch} (hdone : bt.done = false)
    (hn : bt.k + (wireFrame p cmd expcs xs).length ≤ bt.n.toNat) :
    batchLoop p (wireFrame p cmd expcs xs ++ rest) f bt =
      ⟨rest, parsedFrame p f cmd expcs xs,
        { bt with k := bt.k + (wireFrame p cmd expcs xs).length, done := true }⟩ := by
  have ht : p.tail ≠ [] := List.ne_nil_of_length_pos hp.2.1.1
  have haccepts := accepts_wireFrame hp hf cmd expcs hxs
  generalize hinit : p.hdr ++ (fieldBytes cmd (BitVec.ofNat 16 xs.length) expcs ++ (xs ++ p.tail.dropLast)) = init
    at haccepts
  have hsplit : wireFrame p cmd expcs xs = init ++ [p.tail.getLast ht] := by
    rw [wireFrame_eq, ← hinit]
    simp only [List.append_assoc, List.dropLast_append_getLast]
  have hlast := stepByte_lastTail hp (parsedFrame p f cmd expcs xs) ht
  rw [parsedFrame_len hxs] at hlast
  rw [hsplit, List.length_append, List.length_singleton] at hn ⊢
  have hrun : batchRunning { bt with k := bt.k + init.length } = true :=
    (batchRunning_iff _).2 ⟨show bt.k + init.length < bt.n.toNat by omega, hdone⟩
  rw [List.append_assoc, haccepts.batchLoop _ hdone (by omega), List.singleton_append, batchLoop_cons_running hrun,
    hlast, batchLoop_stopped (by simp [batchRunning])]
  simp [batchAfter, Nat.add_assoc, parsedFrame]

/-- The state after a batch whose loop stopped at the end of a wire frame, register by register (41_frame_parser.md R94,
R98, R99). -/
theorem exec_fpBatch_parsed {s : State} {n : Half} {cmd : Byte} {expcs : Half} {xs rest : List Byte} {k : Nat}
    {r : Bool} (hp : s.params.Legal) (hxs : xs.length ≤ 65535)
    (h : batchLoop s.params s.q s.frame ⟨n, 0, false, false⟩ =
      ⟨rest, parsedFrame s.params s.frame cmd expcs xs, ⟨n, k, true, r⟩⟩) :
    ∃ t, exec (.fpBatch n) s = .next t ∧
      t.status = (if expcs = checksum xs then 3 else 4) ∧
      t.bcnt.toNat = k ∧
      t.frame.cursor = 0 ∧ t.frame.cmd = cmd ∧ t.frame.len.toNat = xs.length ∧ t.frame.expcs = expcs ∧
      frameChecksum t.frame = checksum xs ∧
      (∀ i b, xs[i]? = some b → xs.length ≤ i + s.params.C → t.frame.pb.read? (i % s.params.C) = some b) ∧
      (∀ j, s.params.C ≤ j ∨ xs.length ≤ j → t.frame.pb.read? j = s.frame.pb.read? j) ∧
      t = { s with frame := t.frame, status := t.status, bcnt := t.bcnt, batch := none, q := rest } := by
  have hend : (runBatch ⟨n, 0, false, false⟩ s).batch = none :=
    (runBatch_ended_iff _ s).2 (by rw [h]; exact Bool.and_false _)
  have hframe : (runBatch ⟨n, 0, false, false⟩ s).frame = parsedFrame s.params s.frame cmd expcs xs := by
    rw [runBatch_frame, h]
  have hq : (runBatch ⟨n, 0, false, false⟩ s).q = rest := by rw [runBatch_q, h]
  have hbcnt := runBatch_bcnt_toNat_of_ended hend (Nat.zero_le _)
  obtain ⟨-, hstatus, -⟩ := runBatch_writes_of_ended hend
  have hverdict : endStatus ⟨n, k, true, r⟩ (parsedFrame s.params s.frame cmd expcs xs) =
      if expcs = checksum xs then 3 else 4 := by
    rw [endStatus, if_pos rfl]
    exact if_congr eq_comm rfl rfl
  rw [h] at hbcnt hstatus
  rw [hframe, hverdict] at hstatus
  refine ⟨_, exec_fpBatch n s, hstatus, hbcnt, ?_⟩
  have heq := runBatch_eq_with ⟨n, 0, false, false⟩ s
  rw [hend, hq] at heq
  rw [hframe] at heq ⊢
  refine ⟨rfl, rfl, parsedFrame_len hxs, rfl, rfl, fun i b hb hC => ?_, fun j hj => ?_, heq⟩
  · have := read?_storePayload (p := s.params) (m := s.frame.pb) (i := 0) hb hC
    rwa [Nat.zero_add] at this
  · refine read?_storePayload_other fun i hi hslot => ?_
    have hlt : payloadSlot s.params (0 + i) < s.params.C := Nat.mod_lt _ hp.2.2.1
    have hle : payloadSlot s.params (0 + i) ≤ 0 + i := Nat.mod_le _ _
    omega

/-! ### The obligations -/

/-- Settles O32: the loop takes the frame and stops, and what it leaves is the frame's fields and payload. -/
theorem wholeFrameIsParsed : Obligations.WholeFrameIsParsed := by
  intro s cmd expcs xs rest n hp hcursor hxs hq hn
  have hloop := batchLoop_wireFrame hp hcursor cmd expcs hxs rest (bt := ⟨n, 0, false, false⟩) rfl
    ((Nat.zero_add _).trans_le hn)
  rw [← hq, Nat.zero_add] at hloop
  rw [← length_wireFrame s.params cmd expcs xs]
  exact exec_fpBatch_parsed hp hxs hloop

/-- Settles O33: the matching header bytes and the mismatch bring the loop back to where it started, `k + 1` bytes
further and with the mismatch noted, which a completed frame overrides. -/
theorem frameAfterAHeaderMismatchIsParsed : Obligations.FrameAfterAHeaderMismatchIsParsed := by
  intro s k x cmd expcs xs rest n hp hcursor hxs hk hx hq hn
  have hheader := accepts_header hp s.frame hk.le
  rw [atCursor_zero hcursor] at hheader
  have hlen : (s.params.hdr.take k).length = k := List.length_take_of_le hk.le
  have hc : (atCursor s.frame k).cursor.toNat = k := toNat_ofNat_cursor (by have := hp.1.2; omega)
  have hmismatch : stepByte s.params (atCursor s.frame k) x = ⟨s.frame, .mismatch⟩ := by
    rw [stepByte_of_standsIn .header (hc.trans_lt hk)]
    refine (headerByte_mismatch (by rwa [hc])).trans ?_
    rw [mismatch, ← hcursor]
    rfl
  have hrun : batchRunning ⟨n, k, false, false⟩ = true :=
    (batchRunning_iff _).2 ⟨show k < n.toNat by omega, rfl⟩
  have hloop : batchLoop s.params s.q s.frame ⟨n, 0, false, false⟩ =
      ⟨rest, parsedFrame s.params s.frame cmd expcs xs,
        ⟨n, k + 1 + (wireFrame s.params cmd expcs xs).length, true, true⟩⟩ := by
    rw [hq, List.append_assoc, List.cons_append, hheader.batchLoop _ rfl (by simp only [hlen]; omega), hlen,
      Nat.zero_add, batchLoop_cons_running hrun, hmismatch]
    exact batchLoop_wireFrame hp hcursor cmd expcs hxs rest (bt := ⟨n, k + 1, false, true⟩) rfl hn
  rw [← length_wireFrame s.params cmd expcs xs]
  exact exec_fpBatch_parsed hp hxs hloop

end Sys2Proof.Machine

/-! SUPPORT and the statements of 20_memory.md and 70_reset_and_hazards.md about reads, the port, the queue and RST. -/

namespace Sys2Proof.Machine

/-! ### Register reads -/

theorem regRead_status {s : State} (h : statusLegal s.status = true) :
    regRead 0x1 s = .next (s.status.setWidth 32, s) :=
  regRead_of_readReg (r := .status) rfl (if_pos h)

theorem regRead_status_fault {s : State} (h : statusLegal s.status = false) :
    regRead 0x1 s = .fault .statusCodeNeverHeld := by
  have hr : regAt s.params 0x1 = some .status := rfl
  have hv : readReg .status s = .error .statusCodeNeverHeld := if_neg (by rw [h]; exact Bool.false_ne_true)
  simp only [regRead, hr, hv]

theorem regRead_pb {s : State} (hC : s.params.C ≤ 65536) {i : Nat} (hi : i < s.params.C) :
    regRead (BitVec.ofNat 32 (0x10000 + i)) s = .next ((pbByte s i).setWidth 32, s) :=
  regRead_of_readReg (regAt_pb hC hi) rfl

theorem pbByte_written {s : State} {i : Nat} {b : Byte} (h : s.frame.pb.read? i = some b) : pbByte s i = b := by
  simp only [pbByte, h]

theorem pbByte_unwritten {s : State} {i : Nat} (h : s.frame.pb.read? i = none) :
    pbByte s i = Config.pbDraw s.resets i := by
  simp only [pbByte, h]

/-! ### What comes next -/

/-- The oldest input, where it is no transaction, comes next whether or not the port is open. -/
theorem nextInput_of_nonTransaction {s : State} {x : Input} {rest : List Input} (hx : isTransaction x = false)
    (hp : s.pending = x :: rest) : nextInput s = some (x, rest) := by
  cases hblk : portBlocked s with
  | true => simp [nextInput_blocked hblk, hp, takeNonTransaction, hx]
  | false => exact nextInput_open hblk hp

theorem perform_commandWord {w : Word} {i : Instr} (h : decode w = .ok i) (s : State) :
    perform (.regWrite 0 w) s = exec i s := execute_of_decode h s

theorem step_release {s : State} {rest : List Input} (hw : inputTurn s) (hn : nextInput s = some (.rst false, rest)) :
    step s = .next { s with pending := rest, rstAsserted := false } := step_input hw hn

theorem exec_err {i : Instr} {s t : State} (h : exec i s = .next t) : t.err = s.err := by
  obtain ⟨u, hu, herr⟩ := exec_next_err i s
  cases h.symm.trans hu
  exact herr

/-! ### The queue -/

/-- A batch takes bytes from the head of `Q` (20_memory.md R50). -/
theorem runBatch_q_drop (bt : Batch) (s : State) : ∃ k ≤ s.q.length, (runBatch bt s).q = s.q.drop k := by
  obtain ⟨j, hj, -, hq⟩ := batchLoop_takes (p := s.params) s.q s.frame bt
  exact ⟨j, hj, (runBatch_q bt s).trans hq⟩

/-- Of the commands only `FP.BATCH` touches `Q`. -/
theorem exec_q {i : Instr} {s t : State} (h : exec i s = .next t) :
    t.q = s.q ∨ ∃ n, i = .fpBatch n ∧ ∃ k ≤ s.q.length, t.q = s.q.drop k := by
  obtain ⟨-, rfl⟩ | ⟨b, -, rfl⟩ | ⟨n, rfl, rfl⟩ := exec_cases h
  · exact .inl rfl
  · exact .inl rfl
  · exact .inr ⟨n, rfl, runBatch_q_drop _ s⟩

theorem regRead_q {idx v : Word} {s t : State} (h : regRead idx s = .next (v, t)) : t.q = s.q := by
  obtain ⟨rfl, -⟩ | ⟨rfl, -, -⟩ := regRead_cases h <;> rfl

/-! ### The obligations -/

/-- Settles O35: the register each index names, and its value by its definition. -/
theorem registerMapReads : Obligations.RegisterMapReads := by
  intro s hstatus hC
  refine ⟨rfl, regRead_status hstatus, ⟨stateValue s, stateValue_le s, regRead_state s⟩, rfl, rfl, rfl, rfl, rfl, ?_,
    rfl, ?_, rfl, rfl, rfl, rfl, fun i b hi hb => ?_, fun i hi hb => ?_, fun idx hlow hidx => ?_⟩
  · rw [← frameChecksum_read]; rfl
  · rw [← csOut_read]; rfl
  · rw [regRead_pb hC hi, pbByte_written hb]
  · rw [regRead_pb hC hi, pbByte_unwritten hb]
  · refine regRead_unmapped ((regAt_window hlow).trans (if_neg fun h => ?_))
    omega

/-- Settles O37: the four codes of 10_state.md R20 are legal and the other four are not. -/
theorem statusReadStopsOnNeverHeldCodes : Obligations.StatusReadStopsOnNeverHeldCodes := by
  refine fun s => ⟨fun h => regRead_status_fault ?_, fun h => regRead_status ((statusLegal_iff _).2 h)⟩
  obtain h | h | h | h := h <;> rw [h] <;> rfl

/-- Settles O39: a command leaves `ERR`, and each input that is a command error is one flag and nothing else. -/
theorem errorFlagsAreSticky : Obligations.ErrorFlagsAreSticky := by
  refine ⟨fun _ _ _ => exec_err, fun s t h => ?_⟩
  obtain ⟨bt, -, -, hgo⟩ | ⟨-, x, rest, hnext, hinput⟩ | ⟨-, -, hidle⟩ := step_cases s
  · cases h.symm.trans hgo
    exact .inr (.inl (runBatch_err bt s))
  · obtain ⟨v, i, -, -, hexec⟩ | ⟨v, e, hx, hd, rfl⟩ | ⟨idx, v, hx, hidx, rfl⟩ | ⟨idx, v, u, hx, hread, rfl⟩ |
      ⟨b, -, rfl⟩ | ⟨rfl, -⟩ | ⟨-, rfl⟩ := perform_cases (hinput.symm.trans h)
    · exact .inr (.inl (exec_err (s := { s with pending := rest }) hexec))
    · exact .inr (.inr ⟨x, rest, hnext, .inl ⟨v, e, hx, hd, rfl⟩⟩)
    · exact .inr (.inr ⟨x, rest, hnext, .inr (.inl ⟨idx, v, hx, hidx, rfl⟩)⟩)
    · obtain ⟨rfl, -⟩ | ⟨rfl, rfl, hnone⟩ := regRead_cases hread
      · exact .inr (.inl rfl)
      · exact .inr (.inr ⟨x, rest, hnext, .inr (.inr ⟨idx, hx, hnone, rfl⟩)⟩)
    · exact .inr (.inl rfl)
    · exact .inl ⟨rest, hnext⟩
    · exact .inr (.inl rfl)
  · cases h.symm.trans hidle
    exact .inr (.inl rfl)

/-- Settles O44: a batch takes from the head, a byte arrives at the tail, and no other input touches `Q`. -/
theorem queueIsFirstInFirstOut : Obligations.QueueIsFirstInFirstOut := by
  intro s t h
  obtain ⟨bt, hbatch, -, hgo⟩ | ⟨-, x, rest, hnext, hinput⟩ | ⟨-, -, hidle⟩ := step_cases s
  · cases h.symm.trans hgo
    obtain ⟨k, hk, hq⟩ := runBatch_q_drop bt s
    exact .inr (.inr ⟨k, hk, hq, .inl (by rw [hbatch]; nofun)⟩)
  · obtain ⟨v, i, rfl, hd, hexec⟩ | ⟨v, e, -, -, rfl⟩ | ⟨idx, v, -, -, rfl⟩ | ⟨idx, v, u, -, hread, rfl⟩ |
      ⟨b, rfl, rfl⟩ | ⟨-, rfl⟩ | ⟨-, rfl⟩ := perform_cases (hinput.symm.trans h)
    · obtain hq | ⟨n, rfl, k, hk, hq⟩ := exec_q hexec
      · exact .inr (.inl hq)
      · exact .inr (.inr ⟨k, hk, hq, .inr ⟨v, n, rest, hnext, hd⟩⟩)
    · exact .inr (.inl rfl)
    · exact .inr (.inl rfl)
    · exact .inr (.inl (regRead_q (s := { s with pending := rest }) (t := u) hread))
    · exact .inl ⟨b, rest, hnext, rfl⟩
    · exact .inr (.inl rfl)
    · exact .inr (.inl rfl)
  · cases h.symm.trans hidle
    exact .inr (.inl rfl)

/-- Settles O45: in a wait the port is blocked, so a step is a byte's arrival, a change of RST, or nothing. -/
theorem waitingBatchBlocksThePort : Obligations.WaitingBatchBlocksThePort := by
  intro s t bt hbatch hq h
  have hblk : portBlocked s = true := by simp [portBlocked, hbatch]
  obtain ⟨b, rest, -, rfl, hf⟩ | ⟨rest, hn, rfl, hf⟩ | ⟨rest, -, rfl, hf⟩ | ⟨-, rfl⟩ :=
    step_blocked_cases hblk (.inr hq) h
  · exact ⟨rfl, hf, .inr ⟨hbatch, rfl, rfl, rfl, rfl, rfl, rfl⟩⟩
  · exact ⟨rfl, hf, .inl ⟨rest, hn⟩⟩
  · exact ⟨rfl, hf, .inr ⟨hbatch, rfl, rfl, rfl, rfl, rfl, rfl⟩⟩
  · exact ⟨rfl, rfl, .inr ⟨hbatch, rfl, rfl, rfl, rfl, rfl, rfl⟩⟩

/-- Settles O49: with RST asserted the port is blocked, so a step is a byte's arrival, a change of RST, or nothing. -/
theorem nothingExecutesWhileResetIsAsserted : Obligations.NothingExecutesWhileResetIsAsserted := by
  intro s t hrst hbatch h
  have hblk : portBlocked s = true := by simp [portBlocked, hrst]
  obtain ⟨b, rest, -, rfl, hf⟩ | ⟨rest, hn, rfl, hf⟩ | ⟨rest, -, rfl, hf⟩ | ⟨-, rfl⟩ :=
    step_blocked_cases hblk (.inl hbatch) h
  · exact ⟨rfl, hf, .inr ⟨b, rfl⟩, hbatch, .inr ⟨rfl, rfl, rfl, rfl, rfl, rfl⟩⟩
  · exact ⟨rfl, hf, .inl rfl, rfl, .inl ⟨rest, hn⟩⟩
  · exact ⟨rfl, hf, .inl rfl, hbatch, .inr ⟨rfl, rfl, rfl, rfl, rfl, rfl⟩⟩
  · exact ⟨rfl, rfl, .inl rfl, hbatch, .inr ⟨rfl, rfl, rfl, rfl, rfl, rfl⟩⟩

/-- Settles O40: with the port open the oldest input takes effect, and the word decodes to the command. -/
theorem stepRunsTheDecodedCommand : Obligations.StepRunsTheDecodedCommand :=
  fun _ _ _ _ hi hp hd => (step_open hi hp).trans (perform_commandWord hd _)

/-- Settles O41: the placed word is the oldest input, with the port open, and decodes to the command. -/
theorem placedWordRunsNext : Obligations.PlacedWordRunsNext := fun s i =>
  (step_open (s := s.withFetchWord 32 (encode i).toNat) ⟨rfl, rfl⟩ rfl).trans
    (perform_commandWord (by rw [tableWord_toNat, decode_encode]) _)

/-- Settles O42: with the port open the read takes effect, and its value is the reply. -/
theorem readStepRepliesToTheIssuer : Obligations.ReadStepRepliesToTheIssuer :=
  fun _ _ _ _ _ hi hp hread => (step_open hi hp).trans (perform_regRead hread)

/-- Settles O43: the arrival is the next input's effect. -/
theorem byteArrivalAppendsToTheQueue : Obligations.ByteArrivalAppendsToTheQueue :=
  fun _ _ _ hw hn => step_input hw hn

/-- Settles O47: the reset values by definition; the window is HEADER as the parameters are legal. -/
theorem resetStateValues : Obligations.ResetStateValues :=
  ⟨rfl, rfl, rfl, rfl, rfl, rfl, fun _ => rfl, rfl, rfl, rfl, rfl, rfl, rfl,
    frameWindow_of_cursor_zero configParams_legal rfl, rfl⟩

/-- Settles O55: the release is the next input's effect and opens the port, so the input after it takes effect next. -/
theorem releasedResetLetsTheNextTransactionRun : Obligations.ReleasedResetLetsTheNextTransactionRun := by
  refine ⟨fun s rest hw hn => ⟨step_release hw hn, fun hbatch => ⟨hbatch, rfl⟩⟩, fun s x rest hbatch hp => ?_⟩
  have hrun : step { s with pending := x :: rest, rstAsserted := false } =
      perform x { s with pending := rest, rstAsserted := false } := step_open ⟨hbatch, rfl⟩ rfl
  refine ⟨_, step_release (.inl hbatch) (nextInput_of_nonTransaction rfl hp), hrun, fun w i hx hd => ?_⟩
  rw [hrun, hx]
  exact perform_commandWord hd _

end Sys2Proof.Machine
